-- ==== Sys2Proof/Word.lean ====
section
/-! DEFINITION. The word types of the engine: 64-bit words (rule R10), 72-bit command words (rule R30) and
68-bit response words (rule R36). -/

namespace Sys2Proof

/-- A word: 64 bits, bit 0 the least significant (00_scope.md section 5). -/
abbrev Word := BitVec 64

/-- A command word `CW` (rule R30). -/
abbrev CmdWord := BitVec 72

/-- A response word `RW` (rule R36). -/
abbrev RspWord := BitVec 68

end Sys2Proof
end

