-- ==== Sys2Proof/Config.lean ====
section
/-! DEFINITION. What is fixed for one engine and what the spec leaves without a value. The parameters of rule R3
are two tables of the type declared here; `Sys2Proof/Machine/Rom.lean` instantiates them with the values of rule R53. -/

namespace Sys2Proof.Config

/-- A constant table: an ordered 4-tuple of 64-bit words (rules R3, R16), `w0` the first word of the tuple. -/
structure Table where
  w0 : Word
  w1 : Word
  w2 : Word
  w3 : Word
  deriving DecidableEq, Repr

/-- FREE VALUE. What word `i` of the generator state carries after the `n`-th reset, before a SEED. Rule R18: the words
"hold no value (unspecified; a model must not pick zero or any other value)". It has no body, so nothing can be
proved about its value; the argument `n` keeps one reset from repeating the words of another. DESIGN CHOICE (unsafe:
two runs from one reset state share the unknown words): log entry 1. -/
opaque unseededWord (n : Nat) (i : Fin 4) : Word

end Sys2Proof.Config
end

