-- ==== Sys2Proof/Syntax.lean ====
section
/-! DEFINITION. The seven operations of rule R2, one constructor for each row of `spec/opcode_table.json`, and the
lines of the assembly notation of rules R38 and R39. -/

namespace Sys2Proof

/-- A legal command. The operand field of the five commands without input is ignored (rule R34), so their
constructors carry nothing. -/
inductive Instr where
  /-- SEED `value` (rule R41). The operand is an unsigned 64-bit word (rule R32). -/
  | seed (value : Word)
  /-- NEXT (rule R45). -/
  | next
  /-- JUMP (rule R51). -/
  | jump
  /-- LJUMP (rule R52). -/
  | ljump
  /-- NEXTF32 (rule R63). -/
  | nextf32
  /-- NEXTF64 (rule R61). -/
  | nextf64
  /-- NEXTINT `a, b` (rule R64). The bounds are the mathematical integers `signed_32` of rule R33. -/
  | nextint (a b : Int)
  deriving DecidableEq, Repr

/-- One line of a listing (rules R38, R39), with its operands as the numbers written. -/
inductive AsmLine where
  | seed (imm : Nat)
  /-- The pseudo-instruction CONSTRUCT, another spelling of SEED (rule R39). -/
  | construct (imm : Nat)
  | next
  | jump
  | ljump
  | nextf32
  | nextf64
  | nextint (a b : Int)
  /-- `.word72`, an arbitrary command word (rule R38). -/
  | word72 (w : Nat)
  deriving DecidableEq, Repr

end Sys2Proof
end

