-- ==== Sys2Proof/WellFormed.lean ====
section
/-! DEFINITION. Which terms of the syntax the encodings can carry: the ranges of rules R32, R33 and R38. -/

namespace Sys2Proof

/-- The range of an `i32`: `-2^31 .. 2^31 - 1` (rule R33). -/
abbrev inI32 (x : Int) : Prop := -2147483648 ≤ x ∧ x ≤ 2147483647

/-- Whether a command's operands fit their fields. Only NEXTINT can fail: every 64-bit seed is legal (rule R32). The
check of `a < b` is the operation's, not this one's (rule R33). -/
def Instr.wf : Instr → Bool
  | .seed _ => true
  | .next => true
  | .jump => true
  | .ljump => true
  | .nextf32 => true
  | .nextf64 => true
  | .nextint a b => decide (inI32 a) && decide (inI32 b)

/-- Whether the numbers of a listing's line are in the ranges rule R38 gives them. -/
def AsmLine.wf : AsmLine → Bool
  | .seed imm => decide (imm < 2 ^ 64)
  | .construct imm => decide (imm < 2 ^ 64)
  | .next => true
  | .jump => true
  | .ljump => true
  | .nextf32 => true
  | .nextf64 => true
  | .nextint a b => decide (inI32 a) && decide (inI32 b)
  | .word72 w => decide (w < 2 ^ 72)

end Sys2Proof
end

