-- ==== Sys2Proof/Decode.lean ====
section
/-! DEFINITION. Decoding and encoding of command words (rules R30 to R35). The engine has no bytes and no byte order
(rule R22): the unit handed to the decoder is one whole 72-bit command word. -/

namespace Sys2Proof

/-- Why a command word is no operation. -/
inductive DecodeError where
  /-- The opcode is `0x00` or in `0x08..0xFF` (rule R35); it carries that opcode. -/
  | illegalOpcode (opcode : BitVec 8)
  deriving DecidableEq, Repr

/-- `CW[71:64]` (rule R30). -/
def opcodeField (cw : CmdWord) : BitVec 8 := cw.extractLsb' 64 8

/-- `CW[63:0]` (rule R30). -/
def operandField (cw : CmdWord) : Word := cw.extractLsb' 0 64

/-- `signed_32(CW[31:0])`, NEXTINT's lower bound (rule R33). -/
def lowerBoundField (cw : CmdWord) : Int := (cw.extractLsb' 0 32).toInt

/-- `signed_32(CW[63:32])`, NEXTINT's upper bound (rule R33). -/
def upperBoundField (cw : CmdWord) : Int := (cw.extractLsb' 32 32).toInt

/-- The opcode map of rule R31. Only the opcode selects the operation; the 249 opcodes that select none are refused
by name (rule R35). -/
def decode (cw : CmdWord) : Except DecodeError Instr :=
  match (opcodeField cw).toNat with
  | 0x01 => .ok (.seed (operandField cw))
  | 0x02 => .ok .next
  | 0x03 => .ok .jump
  | 0x04 => .ok .ljump
  | 0x05 => .ok .nextf32
  | 0x06 => .ok .nextf64
  | 0x07 => .ok (.nextint (lowerBoundField cw) (upperBoundField cw))
  | _ => .error (.illegalOpcode (opcodeField cw))

/-- The opcode of each operation, in the order of the source's table (rule R31). -/
def opcodeOf : Instr → BitVec 8
  | .seed _ => 0x01#8
  | .next => 0x02#8
  | .jump => 0x03#8
  | .ljump => 0x04#8
  | .nextf32 => 0x05#8
  | .nextf64 => 0x06#8
  | .nextint _ _ => 0x07#8

/-- The operand field an assembler emits: the seed (rule R32), the two bounds with `b` in the high half (rule R33), or
zeros (rule R34). -/
def operandOf : Instr → Word
  | .seed value => value
  | .next => 0#64
  | .jump => 0#64
  | .ljump => 0#64
  | .nextf32 => 0#64
  | .nextf64 => 0#64
  | .nextint a b => BitVec.ofInt 32 b ++ BitVec.ofInt 32 a

/-- The command word of an operation, `CW = {opcode, operand}` (rules R30, R31). -/
def encode (i : Instr) : CmdWord := opcodeOf i ++ operandOf i

/-- A word of `nbits` bits numbered as `spec/opcode_table.json` numbers them, as a command word: bits from `nbits` up
are zero. -/
def cmdWordOfTable (nbits w : Nat) : CmdWord := BitVec.ofNat 72 (w % 2 ^ nbits)

/-- What the decoder reads from a word of the opcode table. -/
def decodeTableWord (nbits w : Nat) : Option Instr :=
  match decode (cmdWordOfTable nbits w) with
  | .ok i => some i
  | .error _ => none

end Sys2Proof
end

