-- ==== Sys2Proof/Machine/State.lean ====
section
/-! DEFINITION. The state of one engine with its ports, and the host's side of them: everything rules R10 to R18, R30,
R36, R80 to R88 name. -/

namespace Sys2Proof.Machine

/-- The GeneratorState: the ordered 4-tuple `(s0, s1, s2, s3)` (rule R10). -/
structure GenState where
  s0 : Word
  s1 : Word
  s2 : Word
  s3 : Word
  deriving DecidableEq, Repr

/-- The codes of a response (rules R36, R70). Codes 4 to 15 are never produced and have no name. -/
inductive Code where
  | ok
  | illegal
  | unseeded
  | range
  deriving DecidableEq, Repr

/-- A response: the 4-bit code and the 64-bit value (rule R36). -/
structure Response where
  code : Code
  value : Word
  deriving DecidableEq, Repr

/-- The two constant tables (rule R21). -/
inductive TableId where
  | jump
  | longJump
  deriving DecidableEq, Repr

/-- What the engine is doing. The transients of rule R17 hold a value only in the two loops. -/
inductive Activity where
  /-- No operation is in progress. -/
  | idle
  /-- A command was accepted (rule R87) and nothing of it has been done yet. -/
  | accepted (cw : CmdWord)
  /-- Inside SEED, between iterations: the accumulator `Z` and how many words are written (40_seed.md section 4). -/
  | seedLoop (z : Word) (i : Nat)
  /-- Inside JUMP or LJUMP, between iterations: the accumulators `A[0..3]` and `j = 64*w + b` (rule R55). -/
  | jumpLoop (table : TableId) (acc : GenState) (j : Nat)
  deriving DecidableEq, Repr

/-- One move of one of the two agents (rule R87). -/
inductive Move where
  /-- The engine's next move; an accepted command is performed as one step (rule R17). -/
  | engine
  /-- The engine's next move, where SEED, JUMP and LJUMP are begun as loops of small steps (rules R17, R55). -/
  | engineSmall
  /-- The host raises `rst` (rules R80, R84). -/
  | assertRst
  /-- The host lowers `rst`. -/
  | releaseRst
  /-- The host sets `cmd_valid` and puts a word on `cmd_word`. -/
  | offer (cw : CmdWord)
  /-- The host lowers `cmd_valid` again before the word is accepted. -/
  | withdraw
  /-- The host takes the response that is waiting (rule R83). -/
  | take
  deriving DecidableEq, Repr

/-- The state of one engine, its ports and the host beside it. -/
structure State where
  /-- `S[0..3]` (rule R10). -/
  gen : GenState
  /-- `STATUS.SEEDED` (rule R13), the level of `st_seeded`. -/
  seeded : Bool
  /-- `STATUS.ERR` (rule R14), the level of `st_err`. -/
  err : Bool
  /-- The operation in progress with its transients (rule R17). -/
  activity : Activity
  /-- The response that waits to be taken, if any (rules R82, R83). -/
  rsp : Option Response
  /-- The level of `rst` (rule R80). -/
  rst : Bool
  /-- `cmd_valid` and `cmd_word`: the word the host offers, if any (30_encoding.md section 1). -/
  cmd : Option CmdWord
  /-- MODEL'S OWN: which moves come next, oldest first. Rule R15 makes the host's commands a parameter of the step
  relation; a step has no argument but the state, so the parameter is held here. DESIGN CHOICE: log entry 2. -/
  sched : List Move
  /-- MODEL'S OWN, the host's record: the responses taken since the last reset, in order (rule R88 result (a): a program
  is issued after a reset, so its record begins there; log entry 2). -/
  taken : List Response
  /-- MODEL'S OWN: the number of the last reset, counted from 0, the counter that `Config.unseededWord` is applied to
  (log entry 1). -/
  resets : Nat
  deriving DecidableEq, Repr

/-- No step of this machine ends in a fault: "Nothing in the engine is `stuck`" (93_implementation_defined.md). The
spec's three faults are refused commands, after which the engine goes on (rule R71); they are `Code`s of a response,
and the step that takes one answers a next state. So this type has no constructor. -/
inductive Fault
  deriving DecidableEq, Repr

/-- Why the model gives an instruction no meaning. -/
inductive Refusal where
  /-- Raised by `exec`'s arm of an instruction that is not modelled yet, and by nothing else. Safe. No arm raises it
  now. -/
  | notModelled (mnemonic : String)
  deriving DecidableEq, Repr

/-- The generator words between the `n`-th reset and the first SEED after it: no value the spec or the model picks
(rule R18, log entry 1). -/
def GenState.unseeded (n : Nat) : GenState :=
  ⟨Config.unseededWord n 0, Config.unseededWord n 1, Config.unseededWord n 2, Config.unseededWord n 3⟩

/-- The machine right after reset (rules R18, R80), `rst` released, the host offering nothing. -/
def State.reset : State where
  gen := GenState.unseeded 0
  seeded := false
  err := false
  activity := .idle
  rsp := none
  rst := false
  cmd := none
  sched := []
  taken := []
  resets := 0

end Sys2Proof.Machine
end

