-- ==== Sys2Proof/Machine/Ops.lean ====
section
/-! DEFINITION. The operations every meaning is built from: the arithmetic of rules R4 to R7, reading and writing the
generator words, answering a command, and taking a fault (rule R71). -/

namespace Sys2Proof.Machine

/-- `(x + y) mod 2^64` (rule R4). -/
def add64 (x y : Word) : Word := x + y

/-- The low 64 bits of the product (rule R4). -/
def mul64 (x y : Word) : Word := x * y

/-- Logical shift left; bits shifted out are discarded (rule R5). -/
def shl64 (x : Word) (k : Nat) : Word := x <<< k

/-- Logical shift right; zeros enter at bit 63 (rule R5). -/
def shr64 (x : Word) (k : Nat) : Word := x >>> k

/-- Circular left rotation (rule R6). -/
def rotl64 (x : Word) (k : Nat) : Word := shl64 x k ||| shr64 x (64 - k)

/-- XOR-shifting right `k` (rule R5). -/
def xorShr (z : Word) (k : Nat) : Word := z ^^^ shr64 z k

/-- The degenerate state `(0, 0, 0, 0)` (rule R12), and the initial accumulators of a jump (rule R50). -/
def GenState.zero : GenState := ⟨0#64, 0#64, 0#64, 0#64⟩

/-- Exclusive-or of states, word by word (rules R7, R46). -/
def GenState.xor (x y : GenState) : GenState :=
  ⟨x.s0 ^^^ y.s0, x.s1 ^^^ y.s1, x.s2 ^^^ y.s2, x.s3 ^^^ y.s3⟩

/-- `S[i]`, `i` in 0..3 (00_scope.md section 5). -/
def GenState.word (g : GenState) : Fin 4 → Word
  | 0 => g.s0
  | 1 => g.s1
  | 2 => g.s2
  | 3 => g.s3

/-- `S[i] <- v`. An index outside 0..3 cannot arise in a run, and writes nothing here (log entry 14). -/
def GenState.setWord (g : GenState) (i : Nat) (v : Word) : GenState :=
  match i with
  | 0 => { g with s0 := v }
  | 1 => { g with s1 := v }
  | 2 => { g with s2 := v }
  | 3 => { g with s3 := v }
  | _ => g

/-- The one write of `S[0..3]` as a whole. -/
def State.setGen (s : State) (g : GenState) : State := { s with gen := g }

/-- The engine goes on with another internal state of its operation. -/
def State.setActivity (s : State) (a : Activity) : State := { s with activity := a }

/-- Answering the command in progress: the response is offered and the operation is over (rules R36, R83). -/
def respond (code : Code) (value : Word) (s : State) : State :=
  { s with rsp := some ⟨code, value⟩, activity := .idle }

/-- Taking a fault (rule R71): the generator words and SEEDED stay, ERR is set, the response is the fault's code with
value 0, and the engine is ready for the next command. Nothing is saved and control goes nowhere, so there is no
return from a fault to model (rule R79). -/
def raiseFault (code : Code) (s : State) : State := respond code 0#64 { s with err := true }

/-- The check of rule R74, first in every command but SEED: a fault while the generator words hold no value, else the
command's own effect. -/
def whenSeeded (s : State) (completed : State) : State :=
  if s.seeded then completed else raiseFault .unseeded s

end Sys2Proof.Machine
end

