-- ==== Sys2Proof/Machine/Operands.lean ====
section
/-! DEFINITION. The fields the converters take from a draw and the forms in which a result enters a response (rules
R22, R37). The operands of a command word are the fields `operandField`, `lowerBoundField` and `upperBoundField` of
`Sys2Proof/Decode.lean`. -/

namespace Sys2Proof.Machine

/-- `r[63:12]`, the top 52 bits of a draw (rules R22 item 4, R61). -/
def fraction52 (r : Word) : BitVec 52 := r.extractLsb' 12 52

/-- `r[31:9]`, the top 23 bits of the least-significant 32 bits of a draw (rules R22 item 5, R63; the reading
90_conflicts.md C2 decides). -/
def fraction23 (r : Word) : BitVec 23 := (r.extractLsb' 0 32).extractLsb' 9 23

/-- A 32-bit result in `value[31:0]` with `value[63:32] = 0` (rule R37). -/
def zeroExtend32 (p : BitVec 32) : Word := p.setWidth 64

/-- The two's-complement pattern `res mod 2^32` of an `i32` result (rules R37, R64). -/
def patternI32 (res : Int) : BitVec 32 := BitVec.ofInt 32 res

end Sys2Proof.Machine
end

