-- ==== Sys2Proof/Machine/Float.lean ====
section
/-! DEFINITION. The IEEE-754 formats of rules R60 and R62 and the arithmetic rules R61, R63 and R64 do on them. Every
value the engine handles is a non-negative multiple of `2^-52` (of `2^-23` for binary32), so a value is carried as
that multiple, a natural number; `f64Value` and `f32Value` say what number a pattern stands for. -/

namespace Sys2Proof.Machine

/-- The exponent-bias constant of binary64: 1023 in the exponent field (rule R60). -/
def f64One : BitVec 64 := 0x3FF0000000000000#64

/-- The exponent-bias constant of binary32: 127 in the exponent field (rule R62). -/
def f32One : BitVec 32 := 0x3F800000#32

/-- The value of a pattern of the binade [1,2), in units of `2^-fw`, from its fraction: `1 + F * 2^-fw`
(rules R60, R62). -/
def binadeUnits (fw : Nat) (fraction : Nat) : Nat := 2 ^ fw + fraction

/-- The pattern of the value `y * 2^-fw`, for `y < 2^fw`, in the format with `fw` fraction bits and the given bias:
all zeros for 0, else exponent field `bias - fw + p` and the bits of `y` below its highest set bit `p`, moved to the
top of the fraction field (rules R61, R63). -/
def patternOfUnits (fw bias : Nat) (y : Nat) : Nat :=
  if y = 0 then 0 else (bias - fw + y.log2) * 2 ^ fw + (y * 2 ^ (fw - y.log2)) % 2 ^ fw

/-- `Bits64` of `y * 2^-52` (rule R61). -/
def bits64 (y : Nat) : BitVec 64 := BitVec.ofNat 64 (patternOfUnits 52 1023 y)

/-- `Bits32` of `y * 2^-23` (rule R63). -/
def bits32 (y : Nat) : BitVec 32 := BitVec.ofNat 32 (patternOfUnits 23 127 y)

/-- Rounding of `num / den` to an integer, ties to the even one (rule R64). -/
def roundHalfEven (num den : Nat) : Nat :=
  let q := num / den
  let r := num % den
  if 2 * r < den then q
  else if den < 2 * r then q + 1
  else if q % 2 = 0 then q else q + 1

/-- `RNE64` on a multiple of `2^-52`, as a multiple of `2^-52`: 53 significant bits, ties to even (rule R64). With
`e = floor(log2 q)` the unit `u = 2^(e-52)` is `2^(log2 n - 52)` of these units, and where `u` is smaller than one of
them nothing is rounded. -/
def rne64 (n : Nat) : Nat :=
  let u := 2 ^ (n.log2 - 52)
  roundHalfEven n u * u

/-- `F64(p)`, for the patterns rule R60 gives a value: the normal numbers and `+0.0`. -/
def f64Value (p : BitVec 64) : Option ℚ :=
  let e := (p.extractLsb' 52 11).toNat
  if p = 0#64 then some 0
  else if 0 < e ∧ e < 2047 then
    some ((-1) ^ (p.extractLsb' 63 1).toNat * 2 ^ ((e : ℤ) - 1023) * (1 + (p.extractLsb' 0 52).toNat / 2 ^ 52))
  else none

/-- `F32(p)`, for the patterns rule R62 gives a value: the normal numbers and `+0.0`. -/
def f32Value (p : BitVec 32) : Option ℚ :=
  let e := (p.extractLsb' 23 8).toNat
  if p = 0#32 then some 0
  else if 0 < e ∧ e < 255 then
    some ((-1) ^ (p.extractLsb' 31 1).toNat * 2 ^ ((e : ℤ) - 127) * (1 + (p.extractLsb' 0 23).toNat / 2 ^ 23))
  else none

end Sys2Proof.Machine
end

