-- ==== Sys2Proof/Machine/Next.lean ====
section
/-! DEFINITION. NEXT, the xoshiro256+ step (41_next.md). -/

namespace Sys2Proof.Machine

/-- Step 1 of `NextStep`: the sum of the old `S[0]` and the old `S[3]` (rule R44). -/
def drawOf (g : GenState) : Word := add64 g.s0 g.s3

/-- Steps 2 to 8 of `NextStep`, in the order rule R44 makes normative. -/
def advance (g : GenState) : GenState :=
  let t := shl64 g.s1 17
  let s2 := g.s2 ^^^ g.s0
  let s3 := g.s3 ^^^ g.s1
  let s1 := g.s1 ^^^ s2
  let s0 := g.s0 ^^^ s3
  ⟨s0, s1, s2 ^^^ t, rotl64 s3 45⟩

/-- One `NextStep` whose draw, converted, is the response: what NEXT and the three converters share (rules R45, R61,
R63, R64). The draw is taken from the words before the update. -/
def respondDraw (convert : Word → Word) (s : State) : State :=
  respond .ok (convert (drawOf s.gen)) (s.setGen (advance s.gen))

/-- NEXT (rule R45): the draw itself. -/
def execNext (s : State) : Host.Outcome State Fault Refusal :=
  .next (whenSeeded s (respondDraw id s))

end Sys2Proof.Machine
end

