-- ==== Sys2Proof/Machine/Convert.lean ====
section
/-! DEFINITION. NEXTF64, NEXTF32 and NEXTINT, the converters (43_convert.md). -/

namespace Sys2Proof.Machine

/-- From a draw to NEXTF64's response value (rule R61): fraction, pattern in [1,2), subtraction of 1.0 (exact), and the
pattern of the difference. -/
def convertF64 (r : Word) : Word :=
  let pat := f64One ||| (fraction52 r).setWidth 64
  let x := binadeUnits 52 (pat.extractLsb' 0 52).toNat
  bits64 (x - 2 ^ 52)

/-- From a draw to NEXTF32's response value (rule R63). -/
def convertF32 (r : Word) : Word :=
  let pat := f32One ||| (fraction23 r).setWidth 32
  let x := binadeUnits 23 (pat.extractLsb' 0 23).toNat
  zeroExtend32 (bits32 (x - 2 ^ 23))

/-- `n = floor(P)`, for `P` the rounded product of `d` and `next_f64()` (rule R64). -/
def scaledDraw (d : Nat) (r : Word) : Nat := rne64 (d * (fraction52 r).toNat) / 2 ^ 52

/-- `res = a + n`, with the exact difference `d = b - a` (rule R64). It is used for `a < b` only. -/
def intResult (a b : Int) (r : Word) : Int := a + scaledDraw (b - a).toNat r

/-- From a draw to NEXTINT's response value (rules R37, R64). -/
def convertInt (a b : Int) (r : Word) : Word := zeroExtend32 (patternI32 (intResult a b r))

/-- NEXTF64 (rule R61). -/
def execNextf64 (s : State) : Host.Outcome State Fault Refusal :=
  .next (whenSeeded s (respondDraw convertF64 s))

/-- NEXTF32 (rule R63). -/
def execNextf32 (s : State) : Host.Outcome State Fault Refusal :=
  .next (whenSeeded s (respondDraw convertF32 s))

/-- NEXTINT `a, b` (rule R64). The range check comes after the check for a seed and before the draw (rules R72,
R75). -/
def execNextint (a b : Int) (s : State) : Host.Outcome State Fault Refusal :=
  .next (whenSeeded s (if b ≤ a then raiseFault .range s else respondDraw (convertInt a b) s))

end Sys2Proof.Machine
end

