-- ==== Sys2Proof/Machine/Rom.lean ====
section
/-! DEFINITION. The constant tables and `Rom` (rules R16, R21, R53). -/

namespace Sys2Proof.Machine

/-- The value this hardware takes for the parameter `JUMP_TABLE` (rule R53). -/
def jumpTable : Config.Table :=
  ⟨0x180EC6D33CFD0ABA#64, 0xD5A61266F0C9392C#64, 0xA9582618E03FC9AA#64, 0x39ABDC4529B1661C#64⟩

/-- The value this hardware takes for the parameter `LONG_JUMP_TABLE` (rule R53). -/
def longJumpTable : Config.Table :=
  ⟨0x76E15D3EFEFDCBBF#64, 0xC5004E441C522FB3#64, 0x77710069854EE241#64, 0x39109BB02ACBE635#64⟩

/-- Which table a name stands for; JUMP names the one and LJUMP the other (rule R21). -/
def tableOf : TableId → Config.Table
  | .jump => jumpTable
  | .longJump => longJumpTable

/-- The word at position `i` of a table, position 0 the first word of the tuple (rule R21). -/
def rom (t : Config.Table) : Fin 4 → Word
  | 0 => t.w0
  | 1 => t.w1
  | 2 => t.w2
  | 3 => t.w3

end Sys2Proof.Machine
end

