-- ==== Sys2Proof/Machine/Jump.lean ====
section
/-! DEFINITION. JUMP and LJUMP, the polynomial applicator (42_jump.md). -/

namespace Sys2Proof.Machine

/-- The accumulators `A[0..3]` and the live state while a jump runs (rule R50). -/
structure JumpRun where
  acc : GenState
  live : GenState
  deriving DecidableEq, Repr

/-- One iteration of rule R50: if the bit is set the current live state goes into the accumulators, and then the live
state advances whether or not it was set. -/
def jumpIter (bit : Bool) (p : JumpRun) : JumpRun :=
  ⟨if bit then p.acc.xor p.live else p.acc, advance p.live⟩

/-- The iterations for bits `0 .. n - 1` of a table word, bit 0 first (rules R22 item 3, R50). -/
def jumpBits (c : Word) : Nat → JumpRun → JumpRun
  | 0, p => p
  | n + 1, p => jumpIter (c.getLsbD n) (jumpBits c n p)

/-- The 64 iterations for a whole table word (rule R50). -/
def jumpWord (c : Word) (p : JumpRun) : JumpRun := jumpBits c 64 p

/-- `PolyApply(Tab)` (rule R50): the table words in table order, from accumulators of 0; the accumulators replace the
live state. The 256 draws are not part of it (92_eei_decisions.md D22). -/
def polyApply (t : Config.Table) (x : GenState) : GenState :=
  (jumpWord (rom t 3) (jumpWord (rom t 2) (jumpWord (rom t 1) (jumpWord (rom t 0) ⟨GenState.zero, x⟩)))).acc

/-- The end of a jump: the accumulators overwrite the words, and the response is code 0, value 0 (rules R50, R51). -/
def completeJump (acc : GenState) (s : State) : State := respond .ok 0#64 (s.setGen acc)

/-- JUMP (rule R51). -/
def execJump (s : State) : Host.Outcome State Fault Refusal :=
  .next (whenSeeded s (completeJump (polyApply (tableOf .jump) s.gen) s))

/-- LJUMP (rule R52). -/
def execLjump (s : State) : Host.Outcome State Fault Refusal :=
  .next (whenSeeded s (completeJump (polyApply (tableOf .longJump) s.gen) s))

end Sys2Proof.Machine
end

