-- ==== Sys2Proof/Machine/Flags.lean ====
section
/-! DEFINITION. The two STATUS bits (10_state.md section 3). The engine has no arithmetic flags: "No operation reads a
carry or an overflow indication, and there is none" (rule R4). ERR is set in `raiseFault`, by every fault and by
nothing else (rule R14). -/

namespace Sys2Proof.Machine

/-- A SEED that completes sets SEEDED; nothing else does (rule R13). -/
def State.setSeeded (s : State) : State := { s with seeded := true }

/-- STATUS as the register of 10_state.md section 3: bit 0 SEEDED, bit 1 ERR. No command reads it. -/
def State.status (s : State) : BitVec 2 := BitVec.ofBool s.err ++ BitVec.ofBool s.seeded

end Sys2Proof.Machine
end

