-- ==== Sys2Proof/Machine/Seed.lean ====
section
/-! DEFINITION. SEED, the SplitMix64 expansion (40_seed.md). In a sum or product with a constant the constant stands first
(both operations commute), so that a comparison of two terms never counts a 64-bit literal down. -/

namespace Sys2Proof.Machine

/-- The constant `G` that each iteration of SEED adds (rule R41). -/
def seedGamma : Word := 0x9E3779B97F4A7C15#64

/-- The mixing function, on a copy of the accumulator (rule R40; the reading of 92_eei_decisions.md D8). -/
def mix64 (z : Word) : Word :=
  let t2 := mul64 0xBF58476D1CE4E5B9#64 (xorShr z 30)
  let t4 := mul64 0x94D049BB133111EB#64 (xorShr t2 27)
  xorShr t4 31

/-- `Z = add64(Z, G)`: all that an iteration does to the accumulator (rule R41). -/
def nextSeedAcc (z : Word) : Word := add64 seedGamma z

/-- One iteration of rule R41 on the accumulator and the words: the add, then `S[i] <- Mix64(Z)`. -/
def seedIter (i : Nat) (p : Word × GenState) : Word × GenState :=
  (nextSeedAcc p.1, p.2.setWord i (mix64 (nextSeedAcc p.1)))

/-- The four iterations of SEED, in order, on words whose old values do not matter (rule R41). -/
def seedWords (value : Word) (old : GenState) : GenState :=
  (seedIter 3 (seedIter 2 (seedIter 1 (seedIter 0 (value, old))))).2

/-- The end of SEED: SEEDED is set and the response is code 0, value 0 (rule R41). -/
def completeSeed (s : State) : State := respond .ok 0#64 s.setSeeded

/-- SEED `value` (rule R41). It never faults. -/
def execSeed (value : Word) (s : State) : Host.Outcome State Fault Refusal :=
  .next (completeSeed (s.setGen (seedWords value s.gen)))

end Sys2Proof.Machine
end

