-- ==== Sys2Proof/Machine/Dispatch.lean ====
section
/-! DEFINITION. The meaning of each instruction, one arm per constructor of `Instr`. -/

namespace Sys2Proof.Machine

def exec (i : Instr) (s : State) : Host.Outcome State Fault Refusal :=
  match i with
  | .seed value => Sys2Proof.Machine.execSeed value s
  | .next => Sys2Proof.Machine.execNext s
  | .jump => Sys2Proof.Machine.execJump s
  | .ljump => Sys2Proof.Machine.execLjump s
  | .nextf32 => Sys2Proof.Machine.execNextf32 s
  | .nextf64 => Sys2Proof.Machine.execNextf64 s
  | .nextint a b => Sys2Proof.Machine.execNextint a b s

end Sys2Proof.Machine
end

