-- ==== Sys2Proof/Machine/Ports.lean ====
section
/-! DEFINITION. The output ports (30_encoding.md section 1) and the moves that pass words through the ports: accepting
a command, offering and taking, and reset (rules R80 to R84, R87). -/

namespace Sys2Proof.Machine

/-- The 4-bit code of a response (rules R36, R70). -/
def Code.bits : Code → BitVec 4
  | .ok => 0#4
  | .illegal => 1#4
  | .unseeded => 2#4
  | .range => 3#4

/-- The response word `RW = {code, value}` (rule R36). -/
def Response.word (r : Response) : RspWord := r.code.bits ++ r.value

/-- `cmd_ready`: no operation in progress, no response waiting (rule R82), and not in reset (rule R80). -/
def State.cmdReady (s : State) : Bool := !s.rst && decide (s.activity = .idle) && s.rsp.isNone

/-- `cmd_valid`. -/
def State.cmdValid (s : State) : Bool := s.cmd.isSome

/-- `rsp_valid`. -/
def State.rspValid (s : State) : Bool := s.rsp.isSome

/-- `rsp_word`, while `rsp_valid` is 1; the spec gives the port no word otherwise (log entry 7). -/
def State.rspWord (s : State) : Option RspWord := s.rsp.map Response.word

/-- A command is accepted when `cmd_valid` and `cmd_ready` are both 1; otherwise a word on the port stays there, "not
lost and not an error" (rule R82). The word accepted leaves the port (log entry 5). -/
def acceptCommand (s : State) : State :=
  match s.cmd with
  | some cw => if s.cmdReady then { s with cmd := none, activity := .accepted cw } else s
  | none => s

/-- Asserting `rst`, at any moment (rules R80, R84): both STATUS bits are 0, the generator words hold no value, an
operation in progress is abandoned without a response, and no response is pending. The record of rule R88 begins anew
(log entry 2). What the host holds on the command port and plans to do is not the engine's to reset (log entry 6). -/
def assertReset (s : State) : State :=
  { s with
    gen := GenState.unseeded (s.resets + 1)
    seeded := false
    err := false
    activity := .idle
    rsp := none
    rst := true
    taken := []
    resets := s.resets + 1 }

/-- Releasing `rst`. -/
def releaseReset (s : State) : State := { s with rst := false }

/-- The host offers a word; it may do so at any moment (rule R87). -/
def offerCommand (cw : CmdWord) (s : State) : State := { s with cmd := some cw }

/-- The host withdraws an offer that was not accepted (rule R87 forbids it only "once accepted"; log entry 4). -/
def withdrawCommand (s : State) : State := { s with cmd := none }

/-- The host takes the response that is waiting, and nothing where none is (rule R83). -/
def takeResponse (s : State) : State :=
  match s.rsp with
  | some r => { s with rsp := none, taken := s.taken ++ [r] }
  | none => s

end Sys2Proof.Machine
end

