-- ==== Sys2Proof/Machine/Engine.lean ====
section
/-! DEFINITION. The engine's moves (rule R87): accept a command, perform it as one step or as the small steps of
40_seed.md section 4 and rule R55, offer its response. -/

namespace Sys2Proof.Machine

/-- An accepted command word is performed whole: a word that is no operation faults with ILLEGAL, before anything
else is looked at (rules R72, R73), and any other runs its instruction. -/
def runCommand (cw : CmdWord) (s : State) : Host.Outcome State Fault Refusal :=
  match decode cw with
  | .ok i => exec i s
  | .error (.illegalOpcode _) => .next (raiseFault .illegal s)

/-- A jump begun as a loop, after the check of rule R74 (rules R51, R52, R55). -/
def beginJump (t : TableId) (s : State) : State :=
  whenSeeded s (s.setActivity (.jumpLoop t GenState.zero 0))

/-- An accepted command word is begun in small steps: SEED, JUMP and LJUMP enter their loops, and every other command
is one step anyway (rule R82). -/
def beginCommand (cw : CmdWord) (s : State) : Host.Outcome State Fault Refusal :=
  match decode cw with
  | .ok (.seed value) => .next (s.setActivity (.seedLoop value 0))
  | .ok .jump => .next (beginJump .jump s)
  | .ok .ljump => .next (beginJump .longJump s)
  | _ => runCommand cw s

/-- One small step of SEED from `(Z, i)`: an iteration while `i < 4`, then the end (40_seed.md section 4). -/
def seedSmallStep (z : Word) (i : Nat) (s : State) : State :=
  if i < 4 then
    (s.setGen (seedIter i (z, s.gen)).2).setActivity (.seedLoop (seedIter i (z, s.gen)).1 (i + 1))
  else completeSeed s

/-- Bit `j mod 64` of `Rom(Tab, j div 64)` (rule R55). -/
def tableBit (t : Config.Table) (j : Nat) : Bool := (rom t (Fin.ofNat 4 (j / 64))).getLsbD (j % 64)

/-- One small step of a jump from `(A, j)`: an iteration while `j < 256`, then the end (rule R55). -/
def jumpSmallStep (t : TableId) (acc : GenState) (j : Nat) (s : State) : State :=
  if j < 256 then
    (s.setGen (jumpIter (tableBit (tableOf t) j) ⟨acc, s.gen⟩).live).setActivity
      (.jumpLoop t (jumpIter (tableBit (tableOf t) j) ⟨acc, s.gen⟩).acc (j + 1))
  else completeJump acc s

/-- The engine's next move, given how it performs a command it has accepted. In reset it does nothing (rule R80). -/
def engineMove (perform : CmdWord → State → Host.Outcome State Fault Refusal) (s : State) :
    Host.Outcome State Fault Refusal :=
  if s.rst then .next s
  else match s.activity with
    | .idle => .next (acceptCommand s)
    | .accepted cw => perform cw s
    | .seedLoop z i => .next (seedSmallStep z i s)
    | .jumpLoop t acc j => .next (jumpSmallStep t acc j s)

/-- What each move does. -/
def runMove (m : Move) (s : State) : Host.Outcome State Fault Refusal :=
  match m with
  | .engine => engineMove runCommand s
  | .engineSmall => engineMove beginCommand s
  | .assertRst => .next (assertReset s)
  | .releaseRst => .next (releaseReset s)
  | .offer cw => .next (offerCommand cw s)
  | .withdraw => .next (withdrawCommand s)
  | .take => .next (takeResponse s)

/-- The move that comes next: the oldest of the schedule, and the engine's own where the host plans nothing more. -/
def State.nextMove (s : State) : Move := s.sched.headD .engine

/-- The state with that move taken off the schedule. -/
def State.popMove (s : State) : State := { s with sched := s.sched.tail }

end Sys2Proof.Machine
end

