-- ==== Sys2Proof/Machine/Step.lean ====
section
/-! DEFINITION. One step of the machine: one move of one of its two agents (rule R87). -/

namespace Sys2Proof.Machine

/-- One step: the next move of the schedule. -/
def step (s : State) : Host.Outcome State Fault Refusal := runMove s.nextMove s.popMove

/-- The state in which a word of the opcode table is the command just accepted and the engine moves next, so that the
next step performs it. The engine has no instruction memory (rule R15): what this sets is what an acceptance leaves
(`rst` low, no response waiting, the word accepted), and the engine's move at the head of the schedule (log entry 3). -/
def State.withFetchWord (s : State) (nbits w : Nat) : State :=
  { s with
    activity := .accepted (cmdWordOfTable nbits w)
    rsp := none
    rst := false
    sched := .engine :: s.sched }

end Sys2Proof.Machine
end

