-- ==== Sys2Proof/Machine/Assembler.lean ====
section
/-! DEFINITION. The assembly notation (rules R38, R39) and programs (rule R88). -/

namespace Sys2Proof.Machine

/-- The encoding of a line whose numbers are in range (rule R38). CONSTRUCT is SEED under another name (rule R39). -/
def assembleWord : AsmLine → CmdWord
  | .word72 w => BitVec.ofNat 72 w
  | .seed imm => encode (.seed (BitVec.ofNat 64 imm))
  | .construct imm => encode (.seed (BitVec.ofNat 64 imm))
  | .next => encode .next
  | .jump => encode .jump
  | .ljump => encode .ljump
  | .nextf32 => encode .nextf32
  | .nextf64 => encode .nextf64
  | .nextint a b => encode (.nextint a b)

/-- The encoding of a line; a number out of its range has none (rule R38). -/
def assemble (l : AsmLine) : Option CmdWord := if l.wf then some (assembleWord l) else none

/-- A command word as rule R38 writes it: 18 hexadecimal digits, opcode first. -/
def hexWord (cw : CmdWord) : String :=
  "0x" ++ String.ofList ((List.range 18).map fun i => ((cw.toNat / 16 ^ (17 - i)) % 16).digitChar.toUpper)

/-- A line in letters, as rule R38 writes it. -/
def asmText : AsmLine → String
  | .seed imm => "SEED " ++ toString imm
  | .construct imm => "CONSTRUCT " ++ toString imm
  | .next => "NEXT"
  | .jump => "JUMP"
  | .ljump => "LJUMP"
  | .nextf32 => "NEXTF32"
  | .nextf64 => "NEXTF64"
  | .nextint a b => "NEXTINT " ++ toString a ++ ", " ++ toString b
  | .word72 w => ".word72 " ++ hexWord (BitVec.ofNat 72 w)

/-- A sequence of digits in a base, most significant first. -/
def digitsValue (base : Nat) (digits : List Nat) : Nat := digits.foldl (fun n d => n * base + d) 0

/-- The number below the base that a digit writes, as `hexWord` writes one; letters of either case (log entry 13). -/
def readDigit (base : Nat) (c : Char) : Option Nat := (List.range base).find? (·.digitChar = c.toLower)

/-- A decimal number of at least one digit. -/
def readDecimal : List Char → Option Nat
  | c :: cs => digitsValue 10 <$> (c :: cs).mapM (readDigit 10)
  | [] => none

/-- An unsigned number, decimal or `0x` hexadecimal (rule R38). -/
def readNat : List Char → Option Nat
  | '0' :: 'x' :: c :: cs => digitsValue 16 <$> (c :: cs).mapM (readDigit 16)
  | cs => readDecimal cs

/-- A signed decimal number (rule R38). -/
def readInt : List Char → Option Int
  | '-' :: cs => (fun n : Nat => -(n : Int)) <$> readDecimal cs
  | cs => (fun n : Nat => (n : Int)) <$> readDecimal cs

/-- A line's characters with the spaces at both ends removed. -/
def trim (cs : List Char) : List Char := ((cs.dropWhile (· = ' ')).reverse.dropWhile (· = ' ')).reverse

/-- The operands of a line: what stands between its commas. -/
def operandTexts (cs : List Char) : List (List Char) :=
  if trim cs = [] then [] else (cs.splitOn ',').map trim

/-- A line read from its letters: the mnemonic in capitals, then the operands separated by commas (rules R38, R39;
log entry 13 for spaces and the letters of hexadecimal digits). Rule R38 writes `.word72 0x...` and does not say whether
`.word72` also takes a decimal number: here it does, a DESIGN CHOICE (log entry 13). -/
def readLine (text : List Char) : Option AsmLine :=
  let line := trim text
  match String.ofList (line.takeWhile (· ≠ ' ')), operandTexts (line.dropWhile (· ≠ ' ')) with
  | "SEED", [imm] => AsmLine.seed <$> readNat imm
  | "CONSTRUCT", [imm] => AsmLine.construct <$> readNat imm
  | "NEXT", [] => some .next
  | "JUMP", [] => some .jump
  | "LJUMP", [] => some .ljump
  | "NEXTF32", [] => some .nextf32
  | "NEXTF64", [] => some .nextf64
  | "NEXTINT", [a, b] => AsmLine.nextint <$> readInt a <*> readInt b
  | ".word72", [w] => AsmLine.word72 <$> readNat w
  | _, _ => none

/-- A program from its listing, one line for each command; none where a line is not of rule R38's syntax or a number is
out of its range. -/
def assembleListing (listing : List String) : Option (List CmdWord) :=
  listing.mapM fun l => readLine l.toList >>= assemble

/-- The moves by which one command is issued and answered: the host offers it, the engine accepts it, performs it and
offers the response, the host takes the response (rules R83, R87). -/
def commandMoves (cw : CmdWord) : List Move := [.offer cw, .engine, .engine, .take]

/-- The moves of a program: its command words issued in order, each after the response to the one before was taken
(rules R38, R82, R88). -/
def programMoves (program : List CmdWord) : List Move := program.flatMap commandMoves

/-- The moves of a program's run: a reset, an offer left from before it withdrawn, and then the program ("issued in order
after a reset", rule R88). -/
def runMoves (program : List CmdWord) : List Move :=
  [.assertRst, .withdraw, .releaseRst] ++ programMoves program

/-- The run of a program is over when no command waits, none is in progress and no response is outstanding
(rule R88). -/
def State.runOver (s : State) : Bool := s.sched.isEmpty && s.cmd.isNone && s.cmdReady

/-- What a run leaves (rule R88): the response words since the reset it began with, in command order, the generator words
where they hold a value, and the two STATUS bits. -/
structure RunResult where
  responses : List RspWord
  words : Option GenState
  seeded : Bool
  err : Bool
  deriving DecidableEq, Repr

/-- The result of a run, read from the state in which it is over. -/
def State.runResult (s : State) : RunResult where
  responses := s.taken.map Response.word
  words := if s.seeded then some s.gen else none
  seeded := s.seeded
  err := s.err

end Sys2Proof.Machine
end

