-- ==== Sys2Proof/Machine/Engines.lean ====
section
/-! DEFINITION. Several engines side by side (rule R77): each has its own state and ports and shares nothing that can
change. A move belongs to one engine (log entry 12). -/

namespace Sys2Proof.Machine

/-- Engine number `k` makes one step; the others do not notice. A number no engine has moves nothing. -/
def stepEngine (k : Nat) (engines : List State) : Host.Outcome (List State) Fault Refusal :=
  match engines[k]? with
  | none => .next engines
  | some s =>
    match step s with
    | .next s' => .next (engines.set k s')
    | .fault r => .fault r
    | .refused r => .refused r

end Sys2Proof.Machine
end

