-- ==== Sys2Proof/Safety.lean ====
section
/-! DEFINITION. The terms in which claims about the engine are made: safe runs, the invariants of a run, what the host
cannot tell apart, and the closed forms the rules derive. -/

namespace Sys2Proof.Machine

/-- `n` steps from a state, stopping where a step answers no next state. -/
def runSteps : Nat → State → Host.Outcome State Fault Refusal
  | 0, s => .next s
  | n + 1, s =>
    match step s with
    | .next t => runSteps n t
    | .fault r => .fault r
    | .refused r => .refused r

/-- Command words performed one after the other, each whole, from the state the one before left, and its response taken
(rules R25, R83, R86). -/
def performInOrder : List CmdWord → State → Host.Outcome State Fault Refusal
  | [], s => .next s
  | cw :: rest, s =>
    match runCommand cw s with
    | .next t => performInOrder rest (takeResponse t)
    | .fault r => .fault r
    | .refused r => .refused r

/-- No command was refused since the last reset: `STATUS.ERR = 0` (rule R88). -/
def State.noneRefused (s : State) : Prop := s.err = false

/-- `xor` over the set bits `j < n` of the table of `T^j(x)`; for `n = 256` the closed form of rule R56. -/
def polySum (t : Config.Table) (x : GenState) : Nat → GenState
  | 0 => GenState.zero
  | n + 1 => if tableBit t n then (polySum t x n).xor (advance^[n] x) else polySum t x n

/-- The unrolled form of rule R41: word `k` of the state after `SEED value` is `Mix64((value + (k+1) * G) mod 2^64)`. -/
def seedWord (value : Word) (k : Nat) : Word := mix64 (BitVec.ofNat 64 (k + 1) * seedGamma + value)

/-- The table with only bit `j` set, `j = 64*w + b` (rule R56). -/
def singleBitTable (j : Nat) : Config.Table :=
  let word (w : Nat) : Word := if j / 64 = w then 1#64 <<< (j % 64) else 0#64
  ⟨word 0, word 1, word 2, word 3⟩

/-- `round_half_even` on the rationals (rule R64). -/
def roundHalfEvenRat (q : ℚ) : ℤ :=
  let f := ⌊q⌋
  if q - f < 1 / 2 then f
  else if 1 / 2 < q - f then f + 1
  else if f % 2 = 0 then f else f + 1

/-- `RNE64(q)` for a non-negative rational, as rule R64 writes it: `u = 2^(floor(log2 q) - 52)`. -/
def rne64Rat (q : ℚ) : ℚ :=
  if q = 0 then 0 else (2 : ℚ) ^ (Int.log 2 q - 52) * roundHalfEvenRat (q / (2 : ℚ) ^ (Int.log 2 q - 52))

/-- The hand-over of commands and responses is in order (rules R70, R71, R80, R82): no response waits while a command is
in progress, reset leaves nothing behind, the loops are inside their bounds, a jump runs only on a seeded engine,
and a fault's response comes with ERR and value 0. -/
def State.protocolOk (s : State) : Prop :=
  (s.activity ≠ .idle → s.rsp = none) ∧
  (s.rst = true → s.activity = .idle ∧ s.rsp = none ∧ s.seeded = false ∧ s.err = false) ∧
  (match s.activity with
    | .idle => True
    | .accepted _ => True
    | .seedLoop _ i => i ≤ 4
    | .jumpLoop _ _ j => j ≤ 256 ∧ s.seeded = true) ∧
  (∀ r, s.rsp = some r → r.code ≠ .ok → s.err = true ∧ r.value = 0#64)

/-- ERR is set exactly if one of the responses since the last reset, taken or waiting, is a fault's (rule R88: "no command
was refused" is `STATUS.ERR = 0`, equivalently that every response has code 0). -/
def State.recordOk (s : State) : Prop :=
  s.err = true ↔ ∃ r : Response, (r ∈ s.taken ∨ s.rsp = some r) ∧ r.code ≠ .ok

/-- The invariant of rule R12, with what it needs inside the loops: between operations the words of a seeded engine are
not all zero; inside SEED the words written so far are those of one seed; inside a jump the live state and the
accumulators are those of a start that was not all zero. -/
def State.nonDegenerate (s : State) : Prop :=
  match s.activity with
  | .idle => s.seeded = true → s.gen ≠ GenState.zero
  | .accepted _ => s.seeded = true → s.gen ≠ GenState.zero
  | .seedLoop z i => ∃ value : Word, z = BitVec.ofNat 64 i * seedGamma + value ∧
      ∀ k : Fin 4, k.val < i → s.gen.word k = seedWord value k.val
  | .jumpLoop t acc j => j ≤ 256 ∧ ∃ x : GenState, x ≠ GenState.zero ∧
      s.gen = advance^[j] x ∧ acc = polySum (tableOf t) x j

/-- Two states that differ only where rule R18 says there is no value: in generator words that no SEED has written since
the last reset (and in the model's own count of resets). -/
def State.sameToHost (s t : State) : Prop :=
  s.seeded = t.seeded ∧ s.err = t.err ∧ s.activity = t.activity ∧ s.rsp = t.rsp ∧ s.rst = t.rst ∧ s.cmd = t.cmd ∧
  s.sched = t.sched ∧ s.taken = t.taken ∧
  (match s.activity with
    | .idle => s.seeded = true → s.gen = t.gen
    | .accepted _ => s.seeded = true → s.gen = t.gen
    | .seedLoop _ i => ∀ k : Fin 4, k.val < i → s.gen.word k = t.gen.word k
    | .jumpLoop _ _ _ => s.gen = t.gen)

/-- What a command leaves alone: everything on the host's side of the ports, and the model's count of resets. -/
def State.sameHostSide (s t : State) : Prop :=
  t.rst = s.rst ∧ t.cmd = s.cmd ∧ t.sched = s.sched ∧ t.taken = s.taken ∧ t.resets = s.resets

/-- The engine is ready and the host offers nothing: where a program's next command is issued (rule R88). -/
def State.atRest (s : State) : Prop :=
  s.activity = .idle ∧ s.rsp = none ∧ s.rst = false ∧ s.cmd = none

end Sys2Proof.Machine
end

