-- ==== Sys2Proof/Certificates/Slice0/Obligations.lean ====
section
/-! DEFINITION. The statements for the provers. -/

open Sys2Proof Sys2Proof.Machine

/-! ## Encoding -/

/-- Rules R30 to R33: an operation whose operands fit their fields is read back from its own word, every operand at
every value. -/
def Obligations.DecodeOfEncodeIsIdentity : Prop :=
  ∀ i : Instr, i.wf = true → decode (encode i) = .ok i

/-- Rules R31 to R34: what is decoded from a word is well-formed and names the word's opcode, and encoding it gives the
word back, with zeros where the operand is ignored. -/
def Obligations.EncodeOfDecodeIsTheWord : Prop :=
  ∀ (cw : CmdWord) (i : Instr), decode cw = .ok i →
    i.wf = true ∧ opcodeOf i = opcodeField cw ∧
    encode i = (match i with
      | .seed _ => cw
      | .nextint _ _ => cw
      | .next => opcodeField cw ++ 0#64
      | .jump => opcodeField cw ++ 0#64
      | .ljump => opcodeField cw ++ 0#64
      | .nextf32 => opcodeField cw ++ 0#64
      | .nextf64 => opcodeField cw ++ 0#64)

/-- Rule R34: the operand of NEXT, JUMP, LJUMP, NEXTF32 and NEXTF64 (opcodes 2 to 6) is ignored, all its values select
the same operation, and the encoder emits zeros there. -/
def Obligations.IgnoredOperandsDecodeAlike : Prop :=
  ∀ op : BitVec 8, 2 ≤ op.toNat → op.toNat ≤ 6 →
    ∃ i, (∀ v : Word, decode (op ++ v) = .ok i) ∧ encode i = op ++ 0#64

/-- Rule R35: the opcodes that select no operation are `0x00` and `0x08..0xFF`, and only they. -/
def Obligations.DecoderRefusesExactlyTheIllegalOpcodes : Prop :=
  ∀ cw : CmdWord, (∃ e, decode cw = .error e) ↔ (opcodeField cw).toNat = 0 ∨ 8 ≤ (opcodeField cw).toNat

/-- The words of 30_encoding.md section 7, one for each operation, and the illegal one. -/
def Obligations.SpecWordsDecodeAsListed : Prop :=
  decode 0x01000000000000002A#72 = .ok (.seed 42#64) ∧
  decode 0x020000000000000000#72 = .ok .next ∧
  decode 0x030000000000000000#72 = .ok .jump ∧
  decode 0x040000000000000000#72 = .ok .ljump ∧
  decode 0x050000000000000000#72 = .ok .nextf32 ∧
  decode 0x060000000000000000#72 = .ok .nextf64 ∧
  decode 0x0700000005FFFFFFFB#72 = .ok (.nextint (-5) 5) ∧
  decode 0x077FFFFFFF80000000#72 = .ok (.nextint (-2147483648) 2147483647) ∧
  decode 0x080000000000000000#72 = .error (.illegalOpcode 0x08#8)

/-- Rules R38, R39: CONSTRUCT assembles to SEED's word, which is read back as SEED of the number written; a number of
more than 64 bits has no encoding. -/
def Obligations.ConstructAssemblesToSeed : Prop :=
  ∀ n : Nat,
    (n < 2 ^ 64 → ∃ cw, assemble (.construct n) = some cw ∧ assemble (.seed n) = some cw ∧
      ∃ v : Word, decode cw = .ok (.seed v) ∧ v.toNat = n) ∧
    (2 ^ 64 ≤ n → assemble (.construct n) = none ∧ assemble (.seed n) = none)

/-- Rule R36: the two fields of a response word; the four codes are 0 to 3, in the order of rule R70. -/
def Obligations.ResponseWordFields : Prop :=
  (∀ r : Response, r.word.extractLsb' 64 4 = r.code.bits ∧ r.word.extractLsb' 0 64 = r.value) ∧
  Code.bits .ok = 0#4 ∧ Code.bits .illegal = 1#4 ∧ Code.bits .unseeded = 2#4 ∧ Code.bits .range = 3#4

/-! ## Arithmetic -/

/-- Rules R4 and R5: sums, products and left shifts modulo `2^64`, right shifts as the floor of a quotient, and the
exclusive-or with a right shift. -/
def Obligations.WordArithmeticIsModular : Prop :=
  ∀ (x y : Word) (k : Nat), 0 < k → k < 64 →
    (add64 x y).toNat = (x.toNat + y.toNat) % 2 ^ 64 ∧
    (mul64 x y).toNat = (x.toNat * y.toNat) % 2 ^ 64 ∧
    (shl64 x k).toNat = (x.toNat * 2 ^ k) % 2 ^ 64 ∧
    (shr64 x k).toNat = x.toNat / 2 ^ k ∧
    (xorShr x k).toNat = x.toNat ^^^ (x.toNat / 2 ^ k)

/-- Rule R6: the rotation by 45, bit by bit; rotating by 19 undoes it, so no bit is lost; and the example (as corrected
in 90_conflicts.md C1). -/
def Obligations.RotationMovesEveryBit : Prop :=
  (∀ x : Word, rotl64 x 45 = (x <<< 45) ||| (x >>> 19)) ∧
  (∀ (x : Word) (i : Nat), i < 64 → (rotl64 x 45).getLsbD ((i + 45) % 64) = x.getLsbD i) ∧
  (∀ x : Word, rotl64 (rotl64 x 45) 19 = x) ∧
  rotl64 1#64 45 = 0x0000200000000000#64

/-- 40_seed.md section 1: the three steps of the mixing function, its value at 0, that it is a bijection (so that only 0
maps to 0; the spec marks this as its own inference, "`Mix64` is a bijection on 64-bit words"), and the example. -/
def Obligations.MixingFollowsItsStepsAndIsBijective : Prop :=
  (∀ z t1 t2 t3 t4 : Word,
    t1 = z ^^^ (z >>> 30) → t2 = t1 * 0xBF58476D1CE4E5B9#64 →
    t3 = t2 ^^^ (t2 >>> 27) → t4 = t3 * 0x94D049BB133111EB#64 →
    mix64 z = t4 ^^^ (t4 >>> 31)) ∧
  Function.Bijective mix64 ∧
  (∀ z : Word, mix64 z = 0#64 ↔ z = 0#64) ∧
  mix64 0x9E3779B97F4A7C15#64 = 0xE220A8397B1DCDAF#64

/-! ## SEED -/

/-- 40_seed.md section 2: SEED completes in every state, for every value, and needs nothing of the state before; the loop on
the accumulator `Z`, written out, gives the four words; SEEDED is set, ERR stays, the response is code 0 and value 0. That
the mixing works on a copy of the accumulator is the spec's reading (its decision D8; PRESUMED, log entry 11). -/
def Obligations.SeedWritesTheExpandedWords : Prop :=
  ∀ value z1 z2 z3 z4 : Word,
    z1 = value + 0x9E3779B97F4A7C15#64 → z2 = z1 + 0x9E3779B97F4A7C15#64 →
    z3 = z2 + 0x9E3779B97F4A7C15#64 → z4 = z3 + 0x9E3779B97F4A7C15#64 →
    decode (0x01#8 ++ value) = .ok (.seed value) ∧
    ∀ s : State, exec (.seed value) s = .next { s with
      gen := ⟨mix64 z1, mix64 z2, mix64 z3, mix64 z4⟩
      seeded := true
      rsp := some ⟨.ok, 0#64⟩
      activity := .idle }

/-- 40_seed.md section 2: the four words in their unrolled form, which the spec infers ("Equivalently, with
`G = 0x9E3779B97F4A7C15`"), whatever the words were. -/
def Obligations.SeedWordsAreTheUnrolledForm : Prop :=
  ∀ (value : Word) (old : GenState) (k : Fin 4),
    (seedWords value old).word k = mix64 (value + (BitVec.ofNat 64 k.val + 1#64) * 0x9E3779B97F4A7C15#64)

/-- 40_seed.md section 3, the spec's inference "SEED never produces the all-zero state": of the four words SEED writes at
most one is zero. -/
def Obligations.SeedLeavesAtMostOneWordZero : Prop :=
  ∀ (value : Word) (s : State), ∃ t, exec (.seed value) s = .next t ∧
    ∀ i j : Fin 4, i ≠ j → t.gen.word i = 0#64 → t.gen.word j ≠ 0#64

/-- 40_seed.md section 3: the words after SEED are a function of the seed alone, and ("Distinct seeds give distinct
states", the spec's inference) distinct seeds give distinct words. -/
def Obligations.SeedStateDeterminesTheSeed : Prop :=
  ∀ (v w : Word) (s t : State), ∃ s' t', exec (.seed v) s = .next s' ∧ exec (.seed w) t = .next t' ∧
    (s'.gen = t'.gen ↔ v = w)

/-! ## NEXT -/

/-- Rules R44 and R45: NEXT on a seeded engine takes the eight steps of `NextStep`, named here one by one, answers the sum
of the words before them, and leaves STATUS and the host's side alone; unseeded, it faults; its operand is ignored. -/
def Obligations.NextAnswersTheDrawAndAdvances : Prop :=
  ∀ (s : State) (operand result t x2 x3 x1 x0 y2 y3 : Word),
    result = s.gen.s0 + s.gen.s3 → t = s.gen.s1 <<< 17 →
    x2 = s.gen.s2 ^^^ s.gen.s0 → x3 = s.gen.s3 ^^^ s.gen.s1 →
    x1 = s.gen.s1 ^^^ x2 → x0 = s.gen.s0 ^^^ x3 →
    y2 = x2 ^^^ t → y3 = (x3 <<< 45) ||| (x3 >>> 19) →
    decode (0x02#8 ++ operand) = .ok .next ∧
    (s.seeded = true → exec .next s = .next { s with
      gen := ⟨x0, x1, y2, y3⟩
      rsp := some ⟨.ok, result⟩
      activity := .idle }) ∧
    (s.seeded = false → exec .next s = .next { s with
      err := true
      rsp := some ⟨.unseeded, 0#64⟩
      activity := .idle })

/-- 41_next.md section 3 (the spec's inference "The state update of `NextStep`, written on the old words"): the update of
the words in closed form, and its linearity over GF(2). -/
def Obligations.StateMapIsLinear : Prop :=
  (∀ a b c d : Word, advance ⟨a, b, c, d⟩ =
    ⟨a ^^^ b ^^^ d, a ^^^ b ^^^ c, a ^^^ c ^^^ (b <<< 17), rotl64 (b ^^^ d) 45⟩) ∧
  (∀ a b c d : Word, drawOf ⟨a, b, c, d⟩ = a + d) ∧
  (∀ x y : GenState, advance (x.xor y) = (advance x).xor (advance y)) ∧
  advance GenState.zero = GenState.zero

/-- 41_next.md section 3 (the spec's inference "`T` is a bijection on 256-bit states"): the update is a bijection, and only
the all-zero state leads to the all-zero state. -/
def Obligations.StateMapIsBijective : Prop :=
  Function.Bijective advance ∧ ∀ x : GenState, advance x = GenState.zero ↔ x = GenState.zero

/-! ## JUMP and LJUMP -/

/-- Rule R50: whatever sequences of accumulators and live states follow the loop, test first and then step, bit 0 of word 0
first, `PolyApply` ends in the accumulators after 256 iterations. -/
def Obligations.PolyApplyFollowsItsLoop : Prop :=
  ∀ (t : Config.Table) (x : GenState) (acc live : Nat → GenState), acc 0 = GenState.zero → live 0 = x →
    (∀ j, j < 256 → acc (j + 1) = if tableBit t j then (acc j).xor (live j) else acc j) →
    (∀ j, j < 256 → live (j + 1) = advance (live j)) →
    polyApply t x = acc 256

/-- 42_jump.md section 1 (the spec's inference "Closed form of rule R50"): the loop is the exclusive-or of the states the
set bits select; hence it is linear, commutes with the update, and a table with one bit advances by that many steps;
the all-zero table gives the all-zero state. -/
def Obligations.PolyApplyClosedForm : Prop :=
  (∀ (t : Config.Table) (x : GenState), polyApply t x = polySum t x 256) ∧
  (∀ (t : Config.Table) (x y : GenState), polyApply t (x.xor y) = (polyApply t x).xor (polyApply t y)) ∧
  (∀ (t : Config.Table) (x : GenState), polyApply t (advance x) = advance (polyApply t x)) ∧
  (∀ (j : Nat) (x : GenState), j < 256 → polyApply (singleBitTable j) x = advance^[j] x) ∧
  (∀ x : GenState, polyApply ⟨0#64, 0#64, 0#64, 0#64⟩ x = GenState.zero)

/-- 42_jump.md sections 2 and 3: JUMP and LJUMP on a seeded engine leave what `PolyApply` gives with their tables, answer
code 0 and value 0, and leave STATUS and the host's side alone; unseeded, they fault; their operands are ignored. The
values of the tables are those the spec derived (rule R53, its decision D21; PRESUMED, log entry 11). -/
def Obligations.JumpsCompleteWithTheirTables : Prop :=
  ∀ (s : State) (operand : Word),
    decode (0x03#8 ++ operand) = .ok .jump ∧ decode (0x04#8 ++ operand) = .ok .ljump ∧
    (s.seeded = true →
      exec .jump s = .next { s with
        gen := polyApply
          ⟨0x180EC6D33CFD0ABA#64, 0xD5A61266F0C9392C#64, 0xA9582618E03FC9AA#64, 0x39ABDC4529B1661C#64⟩ s.gen
        rsp := some ⟨.ok, 0#64⟩
        activity := .idle } ∧
      exec .ljump s = .next { s with
        gen := polyApply
          ⟨0x76E15D3EFEFDCBBF#64, 0xC5004E441C522FB3#64, 0x77710069854EE241#64, 0x39109BB02ACBE635#64⟩ s.gen
        rsp := some ⟨.ok, 0#64⟩
        activity := .idle }) ∧
    (s.seeded = false → ∀ i, i = .jump ∨ i = .ljump →
      exec i s = .next { s with err := true, rsp := some ⟨.unseeded, 0#64⟩, activity := .idle })

/-- 42_jump.md section 4: with the tables of rule R53 a JUMP leaves the state `2^128` NEXTs leave, an LJUMP the state of
`2^192`. That the tables meet this requirement is the spec's own derivation, and their values are PRESUMED in log
entry 11. -/
def Obligations.JumpsAreHugePowersOfTheStep : Prop :=
  ∀ x : GenState,
    polyApply jumpTable x = advance^[2 ^ 128] x ∧ polyApply longJumpTable x = advance^[2 ^ 192] x

/-- 42_jump.md section 3 (the spec's inference "JUMP and LJUMP map a non-zero state to a non-zero state"): with the tables
of rule R53 no jump leads to the all-zero state from another. -/
def Obligations.JumpsKeepNonZeroStates : Prop :=
  ∀ x : GenState, x ≠ GenState.zero →
    polyApply jumpTable x ≠ GenState.zero ∧ polyApply longJumpTable x ≠ GenState.zero

/-- 60_exceptions.md section 6 (the spec's inference "engine `i` then stands `i * 2^128` (resp. `i * 2^192`) steps along"):
engine number `i`, given `i` JUMPs after the SEED it shares with engine 0, stands that many steps along the sequence of
engine 0. -/
def Obligations.JumpedEnginesAreApartInOneSequence : Prop :=
  ∀ (i : Nat) (x : GenState),
    (polyApply jumpTable)^[i] x = advance^[i * 2 ^ 128] x ∧
    (polyApply longJumpTable)^[i] x = advance^[i * 2 ^ 192] x

/-! ## The converters -/

/-- 43_convert.md section 2: NEXTF64 on a seeded engine takes one draw and answers the binary64 pattern whose value is
`k * 2^-52`, `k` the top 52 bits of the draw (one pattern only: 0 is the all-zero pattern, any other value a normal
number); unseeded, it faults; its operand is ignored. The layout of binary64, `+0.0` and the choice of the bits 63 to 12
are the spec's from general knowledge and by decision (G3, G4, D15; PRESUMED, log entry 10). -/
def Obligations.NextF64AnswersTheFraction : Prop :=
  ∀ (s : State) (operand : Word),
    decode (0x06#8 ++ operand) = .ok .nextf64 ∧
    (s.seeded = true → ∃ p : Word,
      exec .nextf64 s = .next { s with gen := advance s.gen, rsp := some ⟨.ok, p⟩, activity := .idle } ∧
      f64Value p = some (((s.gen.s0 + s.gen.s3) >>> 12).toNat / 2 ^ 52 : ℚ)) ∧
    (s.seeded = false →
      exec .nextf64 s = .next { s with err := true, rsp := some ⟨.unseeded, 0#64⟩, activity := .idle })

/-- 43_convert.md section 3: NEXTF32 likewise, with `m` the bits 31 to 9 of the draw and the binary32 pattern
zero-extended. The choice of the bits (D14, C2) and the layout of binary32 (G3) are PRESUMED in log entry 10. -/
def Obligations.NextF32AnswersTheFraction : Prop :=
  ∀ (s : State) (operand : Word),
    decode (0x05#8 ++ operand) = .ok .nextf32 ∧
    (s.seeded = true → ∃ p : BitVec 32,
      exec .nextf32 s = .next { s with gen := advance s.gen, rsp := some ⟨.ok, p.setWidth 64⟩, activity := .idle } ∧
      f32Value p = some (((s.gen.s0 + s.gen.s3).extractLsb' 9 23).toNat / 2 ^ 23 : ℚ)) ∧
    (s.seeded = false →
      exec .nextf32 s = .next { s with err := true, rsp := some ⟨.unseeded, 0#64⟩, activity := .idle })

/-- 43_convert.md section 4: rounding on multiples of `2^-52`, as the model does it, is `RNE64` on the rationals as the
section writes it. (That the product is rounded so is the spec's decision, its entry D13.) -/
def Obligations.RoundingAgreesWithItsRationalForm : Prop :=
  ∀ n : Nat, ((rne64 n : ℚ) / 2 ^ 52) = rne64Rat ((n : ℚ) / 2 ^ 52)

/-- 43_convert.md section 4: for a valid range, NEXTINT `a, b` with `a < b` on a seeded engine takes one draw and answers
`a + floor(RNE64((b - a) * k * 2^-52))` as a zero-extended 32-bit pattern (the equation on `p.toInt` says that it fits);
with `b <= a` it faults and takes none; unseeded, it faults; the operands stand in the halves of the word. That the
product is rounded once, ties to even, and that the other steps are exact is the spec's decision (G4, D13; PRESUMED, log
entry 10). That the answer is at least `a` and below `b` is the statement `ConvertersStayInRange`. -/
def Obligations.NextIntAnswersInRange : Prop :=
  ∀ (s : State) (a b : Int), inI32 a → inI32 b →
    decode (0x07#8 ++ (BitVec.ofInt 32 b ++ BitVec.ofInt 32 a)) = .ok (.nextint a b) ∧
    (s.seeded = true → a < b → ∃ p : BitVec 32,
      exec (.nextint a b) s = .next { s with
        gen := advance s.gen
        rsp := some ⟨.ok, p.setWidth 64⟩
        activity := .idle } ∧
      p.toInt = a + ⌊rne64Rat (((b - a : Int) : ℚ) * ((s.gen.s0 + s.gen.s3) >>> 12).toNat / 2 ^ 52)⌋) ∧
    (s.seeded = true → b ≤ a →
      exec (.nextint a b) s = .next { s with err := true, rsp := some ⟨.range, 0#64⟩, activity := .idle }) ∧
    (s.seeded = false →
      exec (.nextint a b) s = .next { s with err := true, rsp := some ⟨.unseeded, 0#64⟩, activity := .idle })

/-- Rule R65: for every draw the values of NEXTF64 and NEXTF32 are in [0,1), and the result of NEXTINT is at least `a` and
below `b`. -/
def Obligations.ConvertersStayInRange : Prop :=
  ∀ r : Word,
    (∃ x : ℚ, f64Value (convertF64 r) = some x ∧ 0 ≤ x ∧ x < 1) ∧
    (∃ x : ℚ, f32Value ((convertF32 r).setWidth 32) = some x ∧ 0 ≤ x ∧ x < 1) ∧
    (∀ a b : Int, inI32 a → inI32 b → a < b →
      a ≤ ((convertInt a b r).setWidth 32).toInt ∧ ((convertInt a b r).setWidth 32).toInt < b)

/-! ## Faults -/

/-- Rule R74: every command but SEED faults with UNSEEDED while SEEDED is 0, NEXTINT with a bad range included. -/
def Obligations.UnseededCommandsFault : Prop :=
  ∀ (i : Instr) (s : State), (∀ v, i ≠ .seed v) → s.seeded = false →
    exec i s = .next { s with err := true, rsp := some ⟨.unseeded, 0#64⟩, activity := .idle }

/-- Rule R75: NEXTINT with `b <= a`, `b = a` included, faults with RANGE and takes no draw; the check comes after the one
for a seed. -/
def Obligations.BadRangeFaults : Prop :=
  ∀ (a b : Int) (s : State), b ≤ a →
    exec (.nextint a b) s = .next { s with
      err := true
      rsp := some ⟨if s.seeded then .range else .unseeded, 0#64⟩
      activity := .idle }

/-- Rules R35 and R73: a word with an illegal opcode faults with ILLEGAL, whatever its operand, seeded or not, and
changes nothing but ERR and the response. -/
def Obligations.IllegalWordsFault : Prop :=
  ∀ (s : State) (cw : CmdWord), s.rst = false → s.activity = .accepted cw →
    (s.nextMove = .engine ∨ s.nextMove = .engineSmall) →
    ((opcodeField cw).toNat = 0 ∨ 8 ≤ (opcodeField cw).toNat) →
    step s = .next { s with
      sched := s.sched.tail
      err := true
      rsp := some ⟨.illegal, 0#64⟩
      activity := .idle }

/-- Rule R72: which code a command word is answered with: ILLEGAL before UNSEEDED before RANGE before OK. -/
def Obligations.FaultPriority : Prop :=
  ∀ (cw : CmdWord) (s : State), ∃ t r, runCommand cw s = .next t ∧ t.rsp = some r ∧
    (r.code = .illegal ↔ ∃ e, decode cw = .error e) ∧
    (r.code = .unseeded ↔ s.seeded = false ∧ ∃ i, decode cw = .ok i ∧ ∀ v, i ≠ .seed v) ∧
    (r.code = .range ↔ s.seeded = true ∧ ∃ a b, decode cw = .ok (.nextint a b) ∧ b ≤ a)

/-- Rule R71: a command that faults leaves everything but ERR and the response as it was, and the next command does
exactly what it would have done without it, apart from ERR. -/
def Obligations.FaultsLeaveNoTraceButErr : Prop :=
  ∀ (cw next : CmdWord) (s : State), ∃ t r, runCommand cw s = .next t ∧ t.rsp = some r ∧
    (r.code = .ok → t.err = s.err) ∧
    (r.code ≠ .ok →
      t = { s with err := true, rsp := some ⟨r.code, 0#64⟩, activity := .idle } ∧
      ∃ u v, runCommand next t = .next u ∧ runCommand next s = .next v ∧ u = { v with err := true })

/-- What every instruction does to the rest of the machine, in every state (rules R71, R83): it answers a next state, it
ends the operation with exactly one response, and the host's side stays. -/
def Obligations.EveryInstructionAnswersOnce : Prop :=
  ∀ (i : Instr) (s : State), ∃ t r, exec i s = .next t ∧ t.rsp = some r ∧ t.activity = .idle ∧ s.sameHostSide t ∧
    (t.gen = s.gen ∨ r.code = .ok) ∧ (t.seeded = s.seeded ∨ ∃ v, i = .seed v)

/-! ## STATUS and the words, over every step -/

/-- 10_state.md section 3, SEEDED: reset clears it, a SEED that completes sets it, whole or small, and no other step sets
it or clears it. -/
def Obligations.SeededChangesOnlyBySeedAndReset : Prop :=
  (∀ s : State, (assertReset s).seeded = false) ∧
  (∀ (v : Word) (s t : State), exec (.seed v) s = .next t → t.seeded = true) ∧
  (∀ s t : State, step s = .next t →
    (s.seeded = false → t.seeded = true → s.rst = false ∧
      ((∃ cw v, s.activity = .accepted cw ∧ decode cw = .ok (.seed v)) ∨
       (∃ z i, s.activity = .seedLoop z i ∧ 4 ≤ i))) ∧
    (s.seeded = true → t.seeded = false → s.nextMove = .assertRst))

/-- Rule R14: ERR is cleared by reset alone and set by a fault alone (whose response it accompanies), every fault sets
it, and no command's behaviour depends on it. -/
def Obligations.ErrIsStickyAndInert : Prop :=
  (∀ s t : State, step s = .next t →
    (s.err = true → t.err = false → s.nextMove = .assertRst) ∧
    (s.err = false → t.err = true → ∃ r, t.rsp = some r ∧ r.code ≠ .ok)) ∧
  (∀ s : State, (assertReset s).err = false) ∧
  (∀ (cw : CmdWord) (s t : State) (r : Response), runCommand cw s = .next t → t.rsp = some r → r.code ≠ .ok →
    t.err = true) ∧
  (∀ (i : Instr) (s : State) (e : Bool), ∃ t u, exec i s = .next t ∧ exec i { s with err := e } = .next u ∧
    { u with err := t.err } = t)

/-- Rules R11 and R87: no step but an operation's and a reset's changes a generator word, and the host's other moves (an
offer, its withdrawal, taking a response, releasing `rst`) neither withdraw, change nor cancel a command once accepted:
the operation in progress stays with its transients, and so do the words and STATUS. -/
def Obligations.OnlyOperationsWriteTheWords : Prop :=
  ∀ s t : State, step s = .next t →
    (t.gen ≠ s.gen →
      s.nextMove = .assertRst ∨
      ((s.nextMove = .engine ∨ s.nextMove = .engineSmall) ∧ s.rst = false ∧ s.activity ≠ .idle)) ∧
    ((s.nextMove = .withdraw ∨ s.nextMove = .take ∨ s.nextMove = .releaseRst ∨ ∃ cw, s.nextMove = .offer cw) →
      t.activity = s.activity ∧ t.gen = s.gen ∧ t.seeded = s.seeded ∧ t.err = s.err)

/-! ## The machine: reset, hand-over, agents -/

/-- Rules R18 and R80: STATUS, activity and response port after reset, and the engine is ready. (The generator words
hold no value then: log entry 1; rule R18 gives none, and this says nothing about them.) -/
def Obligations.ResetLeavesStatusClearAndIdle : Prop :=
  State.reset.seeded = false ∧ State.reset.err = false ∧ State.reset.activity = .idle ∧ State.reset.rsp = none ∧
  State.reset.rst = false ∧ State.reset.cmdReady = true

/-- Rule R84: a reset at any moment, in the middle of an operation too, abandons what is in progress: no response is
produced and the transients are gone. That the record of responses begins anew then is the model's own (log entry 2), and
that the offer and the further moves stay too (log entry 6). -/
def Obligations.ResetAbandonsTheOperation : Prop :=
  ∀ s : State, s.nextMove = .assertRst → ∃ t, step s = .next t ∧
    t.activity = .idle ∧ t.rsp = none ∧ t.seeded = false ∧ t.err = false ∧ t.rst = true ∧
    t.taken = [] ∧ t.cmd = s.cmd ∧ t.sched = s.sched.tail

/-- Rule R80: while `rst` is asserted no command is accepted: the engine's moves change nothing. -/
def Obligations.NothingHappensInReset : Prop :=
  ∀ s : State, s.rst = true → (s.nextMove = .engine ∨ s.nextMove = .engineSmall) →
    step s = .next { s with sched := s.sched.tail } ∧ s.cmdReady = false

/-- Rules R17 and R87: when an accepted word decodes to an instruction, the engine's move is that instruction on the state
with the move taken off the schedule; nothing else is added around it. So it is for a small move too, but for the three
instructions that have small steps (SEED, JUMP and LJUMP: `SeedInSmallSteps`, `JumpsInSmallSteps`). -/
def Obligations.StepPerformsTheAcceptedInstruction : Prop :=
  ∀ (s : State) (cw : CmdWord) (i : Instr), s.rst = false → s.activity = .accepted cw → decode cw = .ok i →
    (s.nextMove = .engine ∨
      (s.nextMove = .engineSmall ∧ (∀ v, i ≠ .seed v) ∧ i ≠ .jump ∧ i ≠ .ljump)) →
    step s = exec i { s with sched := s.sched.tail }

/-- The word `withFetchWord` places is the one the next step performs, as a word just accepted. The placing is the model's
own (log entry 3). -/
def Obligations.PlacedWordIsPerformedNext : Prop :=
  ∀ (s : State) (nbits w : Nat) (i : Instr), decodeTableWord nbits w = some i →
    step (s.withFetchWord nbits w) =
      exec i { s with activity := .accepted (cmdWordOfTable nbits w), rsp := none, rst := false }

/-- Rule R82: a word becomes the command in progress only from the port, when no operation is in progress, no response
waits and `rst` is low; then an engine's move takes it; and a word that is not accepted stays on the port. -/
def Obligations.CommandsAreAcceptedOnlyWhenReady : Prop :=
  (∀ (s t : State) (cw : CmdWord), step s = .next t → t.activity = .accepted cw → s.activity ≠ .accepted cw →
    s.cmd = some cw ∧ s.activity = .idle ∧ s.rsp = none ∧ s.rst = false) ∧
  (∀ (s : State) (cw : CmdWord), (s.nextMove = .engine ∨ s.nextMove = .engineSmall) → s.cmd = some cw →
    s.activity = .idle → s.rsp = none → s.rst = false →
    step s = .next { s with sched := s.sched.tail, cmd := none, activity := .accepted cw }) ∧
  (∀ (s t : State) (cw : CmdWord), (s.nextMove = .engine ∨ s.nextMove = .engineSmall) → s.cmd = some cw →
    s.cmdReady = false → step s = .next t → t.cmd = some cw)

/-- Rule R83: a response that waits stays as it is until the host takes it, whole and once, or a reset drops it (and the
record of responses begins anew: the model's own, log entry 2). -/
def Obligations.ResponsesAreNeitherLostNorRepeated : Prop :=
  ∀ (s t : State) (r : Response), s.protocolOk → s.rsp = some r → step s = .next t →
    (t.rsp = some r ∧ t.taken = s.taken ∧ s.nextMove ≠ .take ∧ s.nextMove ≠ .assertRst) ∨
    (t.rsp = none ∧ t.taken = s.taken ++ [r] ∧ s.nextMove = .take) ∨
    (t.rsp = none ∧ t.taken = [] ∧ s.nextMove = .assertRst)

/-- Rules R25, R83 and R88: command words issued one after the other from an engine at rest are performed in order, each
from the state the one before left, and answered one by one: as many responses as words, and the engine is at rest
again; ERR then says whether one of them was refused. The clause about ERR is rule R88's own inference; the moves and the
record of responses are the model's (log entry 2). -/
def Obligations.CommandSequencesAreAnsweredInOrder : Prop :=
  ∀ (program : List CmdWord) (s : State) (rest : List Move), s.atRest → s.sched = programMoves program ++ rest →
    ∃ (t : State) (rs : List Response),
      runSteps (4 * program.length) s = .next t ∧ performInOrder program { s with sched := rest } = .next t ∧
      t.atRest ∧ t.sched = rest ∧ rs.length = program.length ∧ t.taken = s.taken ++ rs ∧
      (t.err = true ↔ s.err = true ∨ ∃ r ∈ rs, r.code ≠ .ok)

/-- Rule R88: the run of a program, begun in any state whatever, is over when its moves are made; it did what performing the
words in order after a reset does; its result has one response word for each command, and says that none was refused
(`STATUS.ERR = 0`) exactly if every response word has code 0, which is the rule's own inference. The moves and the record
are the model's (log entry 2), and that an offer left from before is withdrawn and `rst` released again (log entry 6). -/
def Obligations.ProgramsLeaveTheirResult : Prop :=
  ∀ (program : List CmdWord) (s : State), s.sched = runMoves program →
    ∃ t, runSteps (3 + 4 * program.length) s = .next t ∧ t.runOver = true ∧
      performInOrder program (releaseReset (withdrawCommand (assertReset { s with sched := [] }))) = .next t ∧
      t.runResult.responses.length = program.length ∧
      (t.runResult.err = false ↔ ∀ w ∈ t.runResult.responses, w.extractLsb' 64 4 = 0#4)

/-- Every step of the machine answers a next state ("Nothing in the engine is stuck"). -/
def Obligations.EveryStepGoesOn : Prop := ∀ s : State, ∃ t, step s = .next t

/-- 70_reset_and_hazards.md section 4: in whatever mixture of whole and small steps the engine moves, a command in progress
is answered. Rule R85 says only that this takes finitely many steps; the bound of 258 moves is the model's own count (log
entry 8, DESIGN CHOICE). -/
def Obligations.EveryCommandIsAnsweredInBoundedSteps : Prop :=
  ∀ (s : State) (moves rest : List Move), s.protocolOk → s.rst = false → s.activity ≠ .idle →
    (∀ m ∈ moves, m = .engine ∨ m = .engineSmall) → moves.length = 258 → s.sched = moves ++ rest →
    ∃ (t : State) (r : Response), runSteps 258 s = .next t ∧ t.rsp = some r ∧ t.activity = .idle ∧
      t.sched = rest

/-! ## Small steps -/

/-- 40_seed.md section 4: SEED in small steps (a beginning, four iterations, the end) leaves what SEED in one step leaves,
whichever of its two moves the engine goes on with. That the beginning and the end are moves of their own, six in all, is
the model's (log entry 8). -/
def Obligations.SeedInSmallSteps : Prop :=
  ∀ (s : State) (cw : CmdWord) (v : Word) (moves rest : List Move), s.rst = false → s.activity = .accepted cw →
    decode cw = .ok (.seed v) → (∀ m ∈ moves, m = .engine ∨ m = .engineSmall) → moves.length = 5 →
    s.sched = .engineSmall :: (moves ++ rest) →
    runSteps 6 s = exec (.seed v) { s with sched := rest }

/-- 42_jump.md section 5: JUMP and LJUMP in small steps (a beginning, 256 iterations, the end) leave what they leave in one
step, in every state (an unseeded engine faults at the beginning and then waits for the host), whichever of its two moves
the engine goes on with. That the beginning and the end are moves of their own, 258 in all, is the model's (log
entry 8). -/
def Obligations.JumpsInSmallSteps : Prop :=
  ∀ (s : State) (cw : CmdWord) (i : Instr) (moves rest : List Move), s.rst = false → s.activity = .accepted cw →
    (i = .jump ∨ i = .ljump) → decode cw = .ok i → (∀ m ∈ moves, m = .engine ∨ m = .engineSmall) →
    moves.length = 257 → s.sched = .engineSmall :: (moves ++ rest) →
    runSteps 258 s = exec i { s with sched := rest }

/-! ## Invariants -/

/-- Rules R70, R71, R80, R82: the hand-over is in order after every step from a state in which it is. -/
def Obligations.ProtocolIsKept : Prop :=
  ∀ s t : State, s.protocolOk → step s = .next t → t.protocolOk

/-- The hand-over is in order after reset. -/
def Obligations.ProtocolHoldsAtReset : Prop := State.reset.protocolOk

/-- ERR stays what the record of responses says: every step from a state in order keeps that ERR is set exactly if a
response since the last reset, taken or waiting, is a fault's. This is rule R88's own inference over rules R14 and R71;
the record is the model's (log entry 2). -/
def Obligations.RecordIsKept : Prop :=
  ∀ s t : State, s.protocolOk → s.recordOk → step s = .next t → t.recordOk

/-- ERR and the record agree after reset. -/
def Obligations.RecordHoldsAtReset : Prop := State.reset.recordOk

/-- Rule R12: every step, whole or small, keeps the words of a seeded engine from being all zero. -/
def Obligations.NonDegeneracyIsKept : Prop :=
  ∀ s t : State, s.nonDegenerate → step s = .next t → t.nonDegenerate

/-- The invariant of rule R12 holds after reset. -/
def Obligations.NonDegeneracyHoldsAtReset : Prop := State.reset.nonDegenerate

/-- 10_state.md section 2 (the spec's inference "no sequence of commands can produce the all-zero state"): whatever the two
agents do after reset, in whatever order, the words of a seeded engine that is between operations are not all zero; and
the all-zero state is a fixed point of NEXT that draws 0. Nothing here depends on the free values of log entry 1. -/
def Obligations.NoMovesReachTheZeroState : Prop :=
  (∀ (moves : List Move) (n : Nat) (s : State),
    runSteps n { State.reset with sched := moves } = .next s →
    s.seeded = true → (s.activity = .idle ∨ ∃ cw, s.activity = .accepted cw) → s.gen ≠ GenState.zero) ∧
  advance GenState.zero = GenState.zero ∧ drawOf GenState.zero = 0#64

/-- Rules R11, R13, R18: what the words carry before the first SEED after a reset has no influence on anything but those
words: two states that differ only there go to two states that differ only there. -/
def Obligations.UnseededWordsHaveNoInfluence : Prop :=
  ∀ s t s' t' : State, s.sameToHost t → step s = .next s' → step t = .next t' → s'.sameToHost t'

/-- Rule R25: two engines given the same moves from states that differ only in unwritten words answer the same
responses and end alike, after any number of steps. -/
def Obligations.SameMovesGiveTheSameResponses : Prop :=
  ∀ (n : Nat) (s t s' t' : State), s.sameToHost t →
    runSteps n s = .next s' → runSteps n t = .next t' →
    s'.taken = t'.taken ∧ s'.rsp = t'.rsp ∧ s'.seeded = t'.seeded ∧ s'.err = t'.err

/-- Rule R77: a step of one engine leaves every other engine alone, and does to its own state what a step does. -/
def Obligations.EnginesShareNothing : Prop :=
  ∀ (k : Nat) (engines after : List State), stepEngine k engines = .next after →
    after.length = engines.length ∧ (∀ j, j ≠ k → after[j]? = engines[j]?) ∧
    (∀ s s', engines[k]? = some s → step s = .next s' → after[k]? = some s')
end

