-- ==== Sys2Proof/Laws/State.lean ====
section
/-! SUPPORT. The small lemmas of State: one per field per update, and what an answer of `whenSeeded` is. -/

namespace Sys2Proof.Machine

variable (s : State)

/-! `State.setGen`. -/

@[simp] theorem setGen_gen (g : GenState) : (s.setGen g).gen = g := rfl
@[simp] theorem setGen_seeded (g : GenState) : (s.setGen g).seeded = s.seeded := rfl
@[simp] theorem setGen_err (g : GenState) : (s.setGen g).err = s.err := rfl
@[simp] theorem setGen_activity (g : GenState) : (s.setGen g).activity = s.activity := rfl
@[simp] theorem setGen_rsp (g : GenState) : (s.setGen g).rsp = s.rsp := rfl
@[simp] theorem setGen_rst (g : GenState) : (s.setGen g).rst = s.rst := rfl
@[simp] theorem setGen_cmd (g : GenState) : (s.setGen g).cmd = s.cmd := rfl
@[simp] theorem setGen_sched (g : GenState) : (s.setGen g).sched = s.sched := rfl
@[simp] theorem setGen_taken (g : GenState) : (s.setGen g).taken = s.taken := rfl
@[simp] theorem setGen_resets (g : GenState) : (s.setGen g).resets = s.resets := rfl

/-! `State.setActivity`. -/

@[simp] theorem setActivity_gen (a : Activity) : (s.setActivity a).gen = s.gen := rfl
@[simp] theorem setActivity_seeded (a : Activity) : (s.setActivity a).seeded = s.seeded := rfl
@[simp] theorem setActivity_err (a : Activity) : (s.setActivity a).err = s.err := rfl
@[simp] theorem setActivity_activity (a : Activity) : (s.setActivity a).activity = a := rfl
@[simp] theorem setActivity_rsp (a : Activity) : (s.setActivity a).rsp = s.rsp := rfl
@[simp] theorem setActivity_rst (a : Activity) : (s.setActivity a).rst = s.rst := rfl
@[simp] theorem setActivity_cmd (a : Activity) : (s.setActivity a).cmd = s.cmd := rfl
@[simp] theorem setActivity_sched (a : Activity) : (s.setActivity a).sched = s.sched := rfl
@[simp] theorem setActivity_taken (a : Activity) : (s.setActivity a).taken = s.taken := rfl
@[simp] theorem setActivity_resets (a : Activity) : (s.setActivity a).resets = s.resets := rfl

/-! `State.setSeeded` (rule R13). -/

@[simp] theorem setSeeded_gen : (s.setSeeded).gen = s.gen := rfl
@[simp] theorem setSeeded_seeded : (s.setSeeded).seeded = true := rfl
@[simp] theorem setSeeded_err : (s.setSeeded).err = s.err := rfl
@[simp] theorem setSeeded_activity : (s.setSeeded).activity = s.activity := rfl
@[simp] theorem setSeeded_rsp : (s.setSeeded).rsp = s.rsp := rfl
@[simp] theorem setSeeded_rst : (s.setSeeded).rst = s.rst := rfl
@[simp] theorem setSeeded_cmd : (s.setSeeded).cmd = s.cmd := rfl
@[simp] theorem setSeeded_sched : (s.setSeeded).sched = s.sched := rfl
@[simp] theorem setSeeded_taken : (s.setSeeded).taken = s.taken := rfl
@[simp] theorem setSeeded_resets : (s.setSeeded).resets = s.resets := rfl

/-! `State.popMove`. -/

@[simp] theorem popMove_gen : (s.popMove).gen = s.gen := rfl
@[simp] theorem popMove_seeded : (s.popMove).seeded = s.seeded := rfl
@[simp] theorem popMove_err : (s.popMove).err = s.err := rfl
@[simp] theorem popMove_activity : (s.popMove).activity = s.activity := rfl
@[simp] theorem popMove_rsp : (s.popMove).rsp = s.rsp := rfl
@[simp] theorem popMove_rst : (s.popMove).rst = s.rst := rfl
@[simp] theorem popMove_cmd : (s.popMove).cmd = s.cmd := rfl
@[simp] theorem popMove_sched : (s.popMove).sched = s.sched.tail := rfl
@[simp] theorem popMove_taken : (s.popMove).taken = s.taken := rfl
@[simp] theorem popMove_resets : (s.popMove).resets = s.resets := rfl

/-! `respond` (rules R36, R83). -/

@[simp] theorem respond_gen (c : Code) (v : Word) : (respond c v s).gen = s.gen := rfl
@[simp] theorem respond_seeded (c : Code) (v : Word) : (respond c v s).seeded = s.seeded := rfl
@[simp] theorem respond_err (c : Code) (v : Word) : (respond c v s).err = s.err := rfl
@[simp] theorem respond_activity (c : Code) (v : Word) : (respond c v s).activity = .idle := rfl
@[simp] theorem respond_rsp (c : Code) (v : Word) : (respond c v s).rsp = some ⟨c, v⟩ := rfl
@[simp] theorem respond_rst (c : Code) (v : Word) : (respond c v s).rst = s.rst := rfl
@[simp] theorem respond_cmd (c : Code) (v : Word) : (respond c v s).cmd = s.cmd := rfl
@[simp] theorem respond_sched (c : Code) (v : Word) : (respond c v s).sched = s.sched := rfl
@[simp] theorem respond_taken (c : Code) (v : Word) : (respond c v s).taken = s.taken := rfl
@[simp] theorem respond_resets (c : Code) (v : Word) : (respond c v s).resets = s.resets := rfl

/-! `raiseFault` (rule R71). -/

@[simp] theorem raiseFault_gen (c : Code) : (raiseFault c s).gen = s.gen := rfl
@[simp] theorem raiseFault_seeded (c : Code) : (raiseFault c s).seeded = s.seeded := rfl
@[simp] theorem raiseFault_err (c : Code) : (raiseFault c s).err = true := rfl
@[simp] theorem raiseFault_activity (c : Code) : (raiseFault c s).activity = .idle := rfl
@[simp] theorem raiseFault_rsp (c : Code) : (raiseFault c s).rsp = some ⟨c, 0#64⟩ := rfl
@[simp] theorem raiseFault_rst (c : Code) : (raiseFault c s).rst = s.rst := rfl
@[simp] theorem raiseFault_cmd (c : Code) : (raiseFault c s).cmd = s.cmd := rfl
@[simp] theorem raiseFault_sched (c : Code) : (raiseFault c s).sched = s.sched := rfl
@[simp] theorem raiseFault_taken (c : Code) : (raiseFault c s).taken = s.taken := rfl
@[simp] theorem raiseFault_resets (c : Code) : (raiseFault c s).resets = s.resets := rfl

/-! `completeSeed` (rule R41). -/

@[simp] theorem completeSeed_gen : (completeSeed s).gen = s.gen := rfl
@[simp] theorem completeSeed_seeded : (completeSeed s).seeded = true := rfl
@[simp] theorem completeSeed_err : (completeSeed s).err = s.err := rfl
@[simp] theorem completeSeed_activity : (completeSeed s).activity = .idle := rfl
@[simp] theorem completeSeed_rsp : (completeSeed s).rsp = some ⟨.ok, 0#64⟩ := rfl
@[simp] theorem completeSeed_rst : (completeSeed s).rst = s.rst := rfl
@[simp] theorem completeSeed_cmd : (completeSeed s).cmd = s.cmd := rfl
@[simp] theorem completeSeed_sched : (completeSeed s).sched = s.sched := rfl
@[simp] theorem completeSeed_taken : (completeSeed s).taken = s.taken := rfl
@[simp] theorem completeSeed_resets : (completeSeed s).resets = s.resets := rfl

/-! `completeJump` (rule R50). -/

@[simp] theorem completeJump_gen (a : GenState) : (completeJump a s).gen = a := rfl
@[simp] theorem completeJump_seeded (a : GenState) : (completeJump a s).seeded = s.seeded := rfl
@[simp] theorem completeJump_err (a : GenState) : (completeJump a s).err = s.err := rfl
@[simp] theorem completeJump_activity (a : GenState) : (completeJump a s).activity = .idle := rfl
@[simp] theorem completeJump_rsp (a : GenState) : (completeJump a s).rsp = some ⟨.ok, 0#64⟩ := rfl
@[simp] theorem completeJump_rst (a : GenState) : (completeJump a s).rst = s.rst := rfl
@[simp] theorem completeJump_cmd (a : GenState) : (completeJump a s).cmd = s.cmd := rfl
@[simp] theorem completeJump_sched (a : GenState) : (completeJump a s).sched = s.sched := rfl
@[simp] theorem completeJump_taken (a : GenState) : (completeJump a s).taken = s.taken := rfl
@[simp] theorem completeJump_resets (a : GenState) : (completeJump a s).resets = s.resets := rfl

/-! `respondDraw` (rules R45, R61, R63, R64). -/

@[simp] theorem respondDraw_gen (f : Word → Word) : (respondDraw f s).gen = advance s.gen := rfl
@[simp] theorem respondDraw_seeded (f : Word → Word) : (respondDraw f s).seeded = s.seeded := rfl
@[simp] theorem respondDraw_err (f : Word → Word) : (respondDraw f s).err = s.err := rfl
@[simp] theorem respondDraw_activity (f : Word → Word) : (respondDraw f s).activity = .idle := rfl
@[simp] theorem respondDraw_rsp (f : Word → Word) : (respondDraw f s).rsp = some ⟨.ok, f (drawOf s.gen)⟩ := rfl
@[simp] theorem respondDraw_rst (f : Word → Word) : (respondDraw f s).rst = s.rst := rfl
@[simp] theorem respondDraw_cmd (f : Word → Word) : (respondDraw f s).cmd = s.cmd := rfl
@[simp] theorem respondDraw_sched (f : Word → Word) : (respondDraw f s).sched = s.sched := rfl
@[simp] theorem respondDraw_taken (f : Word → Word) : (respondDraw f s).taken = s.taken := rfl
@[simp] theorem respondDraw_resets (f : Word → Word) : (respondDraw f s).resets = s.resets := rfl

/-! `assertReset` (rule R80). -/

@[simp] theorem assertReset_gen : (assertReset s).gen = GenState.unseeded (s.resets + 1) := rfl
@[simp] theorem assertReset_seeded : (assertReset s).seeded = false := rfl
@[simp] theorem assertReset_err : (assertReset s).err = false := rfl
@[simp] theorem assertReset_activity : (assertReset s).activity = .idle := rfl
@[simp] theorem assertReset_rsp : (assertReset s).rsp = none := rfl
@[simp] theorem assertReset_rst : (assertReset s).rst = true := rfl
@[simp] theorem assertReset_cmd : (assertReset s).cmd = s.cmd := rfl
@[simp] theorem assertReset_sched : (assertReset s).sched = s.sched := rfl
@[simp] theorem assertReset_taken : (assertReset s).taken = [] := rfl
@[simp] theorem assertReset_resets : (assertReset s).resets = s.resets + 1 := rfl

/-! `releaseReset`. -/

@[simp] theorem releaseReset_gen : (releaseReset s).gen = s.gen := rfl
@[simp] theorem releaseReset_seeded : (releaseReset s).seeded = s.seeded := rfl
@[simp] theorem releaseReset_err : (releaseReset s).err = s.err := rfl
@[simp] theorem releaseReset_activity : (releaseReset s).activity = s.activity := rfl
@[simp] theorem releaseReset_rsp : (releaseReset s).rsp = s.rsp := rfl
@[simp] theorem releaseReset_rst : (releaseReset s).rst = false := rfl
@[simp] theorem releaseReset_cmd : (releaseReset s).cmd = s.cmd := rfl
@[simp] theorem releaseReset_sched : (releaseReset s).sched = s.sched := rfl
@[simp] theorem releaseReset_taken : (releaseReset s).taken = s.taken := rfl
@[simp] theorem releaseReset_resets : (releaseReset s).resets = s.resets := rfl

/-! `offerCommand`. -/

@[simp] theorem offerCommand_gen (cw : CmdWord) : (offerCommand cw s).gen = s.gen := rfl
@[simp] theorem offerCommand_seeded (cw : CmdWord) : (offerCommand cw s).seeded = s.seeded := rfl
@[simp] theorem offerCommand_err (cw : CmdWord) : (offerCommand cw s).err = s.err := rfl
@[simp] theorem offerCommand_activity (cw : CmdWord) : (offerCommand cw s).activity = s.activity := rfl
@[simp] theorem offerCommand_rsp (cw : CmdWord) : (offerCommand cw s).rsp = s.rsp := rfl
@[simp] theorem offerCommand_rst (cw : CmdWord) : (offerCommand cw s).rst = s.rst := rfl
@[simp] theorem offerCommand_cmd (cw : CmdWord) : (offerCommand cw s).cmd = some cw := rfl
@[simp] theorem offerCommand_sched (cw : CmdWord) : (offerCommand cw s).sched = s.sched := rfl
@[simp] theorem offerCommand_taken (cw : CmdWord) : (offerCommand cw s).taken = s.taken := rfl
@[simp] theorem offerCommand_resets (cw : CmdWord) : (offerCommand cw s).resets = s.resets := rfl

/-! `withdrawCommand`. -/

@[simp] theorem withdrawCommand_gen : (withdrawCommand s).gen = s.gen := rfl
@[simp] theorem withdrawCommand_seeded : (withdrawCommand s).seeded = s.seeded := rfl
@[simp] theorem withdrawCommand_err : (withdrawCommand s).err = s.err := rfl
@[simp] theorem withdrawCommand_activity : (withdrawCommand s).activity = s.activity := rfl
@[simp] theorem withdrawCommand_rsp : (withdrawCommand s).rsp = s.rsp := rfl
@[simp] theorem withdrawCommand_rst : (withdrawCommand s).rst = s.rst := rfl
@[simp] theorem withdrawCommand_cmd : (withdrawCommand s).cmd = none := rfl
@[simp] theorem withdrawCommand_sched : (withdrawCommand s).sched = s.sched := rfl
@[simp] theorem withdrawCommand_taken : (withdrawCommand s).taken = s.taken := rfl
@[simp] theorem withdrawCommand_resets : (withdrawCommand s).resets = s.resets := rfl

theorem whenSeeded_of_seeded {s : State} (h : s.seeded = true) (t : State) : whenSeeded s t = t := by
  simp [whenSeeded, h]

theorem whenSeeded_of_unseeded {s : State} (h : s.seeded = false) (t : State) :
    whenSeeded s t = raiseFault .unseeded s := by
  simp [whenSeeded, h]

/-- All that `whenSeeded` can answer. -/
theorem whenSeeded_cases (t : State) :
    (s.seeded = true ∧ whenSeeded s t = t) ∨ (s.seeded = false ∧ whenSeeded s t = raiseFault .unseeded s) := by
  cases h : s.seeded
  · exact .inr ⟨rfl, whenSeeded_of_unseeded h t⟩
  · exact .inl ⟨rfl, whenSeeded_of_seeded h t⟩

/-- All that `acceptCommand` can answer. -/
theorem acceptCommand_cases :
    (∃ cw, s.cmd = some cw ∧ s.cmdReady = true ∧
      acceptCommand s = { s with cmd := none, activity := .accepted cw }) ∨
    ((s.cmd = none ∨ s.cmdReady = false) ∧ acceptCommand s = s) := by
  cases hc : s.cmd with
  | none => exact .inr ⟨.inl rfl, by simp [acceptCommand, hc]⟩
  | some cw =>
    cases hr : s.cmdReady
    · exact .inr ⟨.inr rfl, by simp [acceptCommand, hc, hr]⟩
    · exact .inl ⟨cw, rfl, rfl, by simp [acceptCommand, hc, hr]⟩

/-- All that `takeResponse` can answer. -/
theorem takeResponse_cases :
    (∃ r, s.rsp = some r ∧ takeResponse s = { s with rsp := none, taken := s.taken ++ [r] }) ∨
    (s.rsp = none ∧ takeResponse s = s) := by
  cases hr : s.rsp with
  | none => exact .inr ⟨rfl, by simp [takeResponse, hr]⟩
  | some r => exact .inl ⟨r, rfl, by simp [takeResponse, hr]⟩

/-- When `cmd_ready` is 1 (rules R80, R82). -/
theorem cmdReady_iff : s.cmdReady = true ↔ s.rst = false ∧ s.activity = .idle ∧ s.rsp = none := by
  cases h : s.rsp <;> simp [State.cmdReady, h]

end Sys2Proof.Machine
end

