-- ==== Sys2Proof/Laws/Exec.lean ====
section
/-! SUPPORT. All that an instruction and a move of the engine can do, said once. -/

namespace Sys2Proof.Machine

/-- The generator words after an instruction completed on the words `g` (rules R41, R44, R50). -/
def completedGen (i : Instr) (g : GenState) : GenState :=
  match i with
  | .seed v => seedWords v g
  | .next => advance g
  | .jump => polyApply jumpTable g
  | .ljump => polyApply longJumpTable g
  | .nextf32 => advance g
  | .nextf64 => advance g
  | .nextint _ _ => advance g

/-- The value an instruction answers when it completes on the words `g` (rule R37). -/
def completedValue (i : Instr) (g : GenState) : Word :=
  match i with
  | .seed _ => 0#64
  | .next => drawOf g
  | .jump => 0#64
  | .ljump => 0#64
  | .nextf32 => convertF32 (drawOf g)
  | .nextf64 => convertF64 (drawOf g)
  | .nextint a b => convertInt a b (drawOf g)

/-- The state after an instruction completed: the engine is seeded then, whatever the instruction. -/
def completed (i : Instr) (s : State) : State :=
  { s with
    gen := completedGen i s.gen
    seeded := true
    activity := .idle
    rsp := some ⟨.ok, completedValue i s.gen⟩ }

/-- The fault an instruction meets, if any, in the order of rule R72. -/
def faultOf (i : Instr) (seeded : Bool) : Option Code :=
  match i with
  | .seed _ => none
  | .next => if seeded then none else some .unseeded
  | .jump => if seeded then none else some .unseeded
  | .ljump => if seeded then none else some .unseeded
  | .nextf32 => if seeded then none else some .unseeded
  | .nextf64 => if seeded then none else some .unseeded
  | .nextint a b => if seeded then (if b ≤ a then some .range else none) else some .unseeded

/-- A completion of a command other than SEED is a response on a seeded engine. -/
theorem respond_setGen_of_seeded {s : State} (h : s.seeded = true) (g : GenState) (v : Word) :
    respond .ok v (s.setGen g) = { s with gen := g, seeded := true, activity := .idle, rsp := some ⟨.ok, v⟩ } := by
  rw [← h]; rfl

/-- SEED completes, whatever the state. -/
theorem exec_seed_eq (v : Word) (s : State) : exec (.seed v) s = .next (completed (.seed v) s) := by
  have value : completed (.seed v) s = completeSeed (s.setGen (completedGen (.seed v) s.gen)) := rfl
  rw [value]
  rfl

/-- All that an instruction can answer: the fault it meets, or its completion. -/
theorem exec_eq (i : Instr) (s : State) :
    exec i s = .next (match faultOf i s.seeded with
      | some c => raiseFault c s
      | none => completed i s) := by
  cases i with
  | seed v =>
    exact exec_seed_eq v s
  | nextint a b =>
    cases h : s.seeded
    · simp only [exec, execNextint, faultOf, whenSeeded_of_unseeded h, Bool.false_eq_true, if_false]
    · by_cases hab : b ≤ a
      · simp only [exec, execNextint, faultOf, whenSeeded_of_seeded h, hab, if_true]
      · simp only [exec, execNextint, faultOf, whenSeeded_of_seeded h, hab, if_true, if_false, respondDraw,
          respond_setGen_of_seeded h, completed, completedGen, completedValue]
  | next =>
    cases h : s.seeded
    · simp only [exec, execNext, faultOf, whenSeeded_of_unseeded h, Bool.false_eq_true, if_false]
    · simp only [exec, execNext, faultOf, whenSeeded_of_seeded h, if_true, respondDraw, id,
        respond_setGen_of_seeded h, completed, completedGen, completedValue]
  | jump =>
    cases h : s.seeded
    · simp only [exec, execJump, faultOf, whenSeeded_of_unseeded h, Bool.false_eq_true, if_false]
    · simp only [exec, execJump, faultOf, whenSeeded_of_seeded h, if_true, completeJump, tableOf,
        respond_setGen_of_seeded h, completed, completedGen, completedValue]
  | ljump =>
    cases h : s.seeded
    · simp only [exec, execLjump, faultOf, whenSeeded_of_unseeded h, Bool.false_eq_true, if_false]
    · simp only [exec, execLjump, faultOf, whenSeeded_of_seeded h, if_true, completeJump, tableOf,
        respond_setGen_of_seeded h, completed, completedGen, completedValue]
  | nextf32 =>
    cases h : s.seeded
    · simp only [exec, execNextf32, faultOf, whenSeeded_of_unseeded h, Bool.false_eq_true, if_false]
    · simp only [exec, execNextf32, faultOf, whenSeeded_of_seeded h, if_true, respondDraw,
        respond_setGen_of_seeded h, completed, completedGen, completedValue]
  | nextf64 =>
    cases h : s.seeded
    · simp only [exec, execNextf64, faultOf, whenSeeded_of_unseeded h, Bool.false_eq_true, if_false]
    · simp only [exec, execNextf64, faultOf, whenSeeded_of_seeded h, if_true, respondDraw,
        respond_setGen_of_seeded h, completed, completedGen, completedValue]

/-- All that performing a command word can answer: it is no operation and faults, or it is an instruction's answer. -/
theorem runCommand_cases (cw : CmdWord) (s : State) :
    ((∃ e, decode cw = .error e) ∧ runCommand cw s = .next (raiseFault .illegal s)) ∨
    (∃ i, decode cw = .ok i ∧ runCommand cw s = exec i s) := by
  cases h : decode cw with
  | error e => cases e; exact .inl ⟨⟨_, rfl⟩, by simp [runCommand, h]⟩
  | ok i => exact .inr ⟨i, rfl, by simp [runCommand, h]⟩

/-- All that beginning a command in small steps can answer; which case it is, the word alone decides. -/
theorem beginCommand_cases (cw : CmdWord) :
    (∃ v, decode cw = .ok (.seed v) ∧ ∀ s, beginCommand cw s = .next (s.setActivity (.seedLoop v 0))) ∨
    (∃ t i, decode cw = .ok i ∧ (i = .jump ∨ i = .ljump) ∧ ∀ s, beginCommand cw s = .next (beginJump t s)) ∨
    ∀ s, beginCommand cw s = runCommand cw s := by
  cases h : decode cw with
  | error e => exact .inr (.inr fun s => by simp only [beginCommand, h])
  | ok i =>
    cases i with
    | seed v => exact .inl ⟨v, rfl, fun s => by simp only [beginCommand, h]⟩
    | jump => exact .inr (.inl ⟨.jump, _, rfl, .inl rfl, fun s => by simp only [beginCommand, h]⟩)
    | ljump => exact .inr (.inl ⟨.longJump, _, rfl, .inr rfl, fun s => by simp only [beginCommand, h]⟩)
    | next => exact .inr (.inr fun s => by simp only [beginCommand, h])
    | nextf32 => exact .inr (.inr fun s => by simp only [beginCommand, h])
    | nextf64 => exact .inr (.inr fun s => by simp only [beginCommand, h])
    | nextint a b => exact .inr (.inr fun s => by simp only [beginCommand, h])

/-- All that the engine's move can answer, by what it is doing. -/
theorem engineMove_cases (perform : CmdWord → State → Host.Outcome State Fault Refusal) (s : State) :
    (s.rst = true ∧ engineMove perform s = .next s) ∨
    (s.rst = false ∧ s.activity = .idle ∧ engineMove perform s = .next (acceptCommand s)) ∨
    (∃ cw, s.rst = false ∧ s.activity = .accepted cw ∧ engineMove perform s = perform cw s) ∨
    (∃ z i, s.rst = false ∧ s.activity = .seedLoop z i ∧ engineMove perform s = .next (seedSmallStep z i s)) ∨
    (∃ t acc j, s.rst = false ∧ s.activity = .jumpLoop t acc j ∧
      engineMove perform s = .next (jumpSmallStep t acc j s)) := by
  cases hr : s.rst
  · cases ha : s.activity with
    | idle => exact .inr (.inl ⟨rfl, rfl, by simp [engineMove, hr, ha]⟩)
    | accepted cw => exact .inr (.inr (.inl ⟨cw, rfl, rfl, by simp [engineMove, hr, ha]⟩))
    | seedLoop z i => exact .inr (.inr (.inr (.inl ⟨z, i, rfl, rfl, by simp [engineMove, hr, ha]⟩)))
    | jumpLoop t acc j => exact .inr (.inr (.inr (.inr ⟨t, acc, j, rfl, rfl, by simp [engineMove, hr, ha]⟩)))
  · exact .inl ⟨rfl, by simp [engineMove, hr]⟩

section

variable {perform : CmdWord → State → Host.Outcome State Fault Refusal} {s : State} (hr : s.rst = false)
include hr

theorem engineMove_idle (ha : s.activity = .idle) : engineMove perform s = .next (acceptCommand s) := by
  simp only [engineMove, hr, ha, Bool.false_eq_true, if_false]

theorem engineMove_accepted {cw : CmdWord} (ha : s.activity = .accepted cw) :
    engineMove perform s = perform cw s := by
  simp only [engineMove, hr, ha, Bool.false_eq_true, if_false]

theorem engineMove_seedLoop {z : Word} {i : Nat} (ha : s.activity = .seedLoop z i) :
    engineMove perform s = .next (seedSmallStep z i s) := by
  simp only [engineMove, hr, ha, Bool.false_eq_true, if_false]

theorem engineMove_jumpLoop {t : TableId} {acc : GenState} {j : Nat} (ha : s.activity = .jumpLoop t acc j) :
    engineMove perform s = .next (jumpSmallStep t acc j s) := by
  simp only [engineMove, hr, ha, Bool.false_eq_true, if_false]

end

/-- A step is the next move, run on the state without it. -/
theorem step_eq (s : State) : step s = runMove s.nextMove s.popMove := rfl

end Sys2Proof.Machine
end

