-- ==== Sys2Proof/Laws/PerInstr.lean ====
section
/-! SUPPORT. Facts about every instruction as syntax, one lemma per constructor. -/

namespace Sys2Proof.Laws

open Sys2Proof

/-- The two fields of an encoded instruction (rules R30, R31). -/
def EncodeFields.Statement (i : Instr) : Prop :=
  opcodeField (encode i) = opcodeOf i ∧ operandField (encode i) = operandOf i

theorem encode_fields (op : BitVec 8) (v : Word) :
    (op ++ v : CmdWord).extractLsb' 64 8 = op ∧ (op ++ v : CmdWord).extractLsb' 0 64 = v := by
  constructor
  · exact BitVec.extractLsb'_append_eq_left
  · exact BitVec.extractLsb'_append_eq_right

theorem EncodeFields.seed (value : Word) : EncodeFields.Statement (.seed value) := encode_fields _ _
theorem EncodeFields.next : EncodeFields.Statement .next := encode_fields _ _
theorem EncodeFields.jump : EncodeFields.Statement .jump := encode_fields _ _
theorem EncodeFields.ljump : EncodeFields.Statement .ljump := encode_fields _ _
theorem EncodeFields.nextf32 : EncodeFields.Statement .nextf32 := encode_fields _ _
theorem EncodeFields.nextf64 : EncodeFields.Statement .nextf64 := encode_fields _ _
theorem EncodeFields.nextint (a b : Int) : EncodeFields.Statement (.nextint a b) := encode_fields _ _

end Sys2Proof.Laws
end

