-- ==== Sys2Proof/Laws/Words.lean ====
section
/-! SUPPORT. The generator words as vectors over GF(2) (rule R7): the algebra of `GenState.xor`, and the update as a map
that respects it (rule R46). -/

namespace Sys2Proof.Machine

@[simp] theorem zero_xor (x : GenState) : GenState.zero.xor x = x := by
  cases x; simp [GenState.zero, GenState.xor]

@[simp] theorem xor_zero (x : GenState) : x.xor GenState.zero = x := by
  cases x; simp [GenState.zero, GenState.xor]

@[simp] theorem xor_self (x : GenState) : x.xor x = GenState.zero := by
  cases x; simp [GenState.zero, GenState.xor]

theorem xor_comm (x y : GenState) : x.xor y = y.xor x := by
  simp only [GenState.xor, BitVec.xor_comm]

theorem xor_assoc (x y z : GenState) : (x.xor y).xor z = x.xor (y.xor z) := by
  simp only [GenState.xor, BitVec.xor_assoc]

theorem xor_xor_xor_comm (a b c d : GenState) : (a.xor b).xor (c.xor d) = (a.xor c).xor (b.xor d) := by
  rw [xor_assoc, ← xor_assoc b, xor_comm b c, xor_assoc c, ← xor_assoc]

/-- The rotation of rule R6 is linear. -/
theorem rotl64_xor (x y : Word) : rotl64 (x ^^^ y) 45 = rotl64 x 45 ^^^ rotl64 y 45 := by
  simp only [rotl64, shl64, shr64]
  ext i hi
  simp
  by_cases h : i < 45
  · simp [h]
  · rw [BitVec.getLsbD_of_ge _ (19 + i) (by omega), BitVec.getLsbD_of_ge _ (19 + i) (by omega)]
    simp [h]

/-- The update in closed form (rule R46). -/
theorem advance_mk (a b c d : Word) : advance ⟨a, b, c, d⟩ =
    ⟨a ^^^ b ^^^ d, a ^^^ b ^^^ c, a ^^^ c ^^^ (b <<< 17), rotl64 (b ^^^ d) 45⟩ := by
  simp only [advance, shl64, GenState.mk.injEq]
  refine ⟨?_, ?_, ?_, ?_⟩
  · rw [BitVec.xor_comm d b, BitVec.xor_assoc]
  · rw [BitVec.xor_comm c a, ← BitVec.xor_assoc, BitVec.xor_comm b a]
  · rw [BitVec.xor_comm c a]
  · rw [BitVec.xor_comm]

theorem advance_zero : advance GenState.zero = GenState.zero := by decide

/-- Exclusive-ors of words, regrouped. -/
theorem word_xor_xor_xor_comm (a b c d : Word) : a ^^^ b ^^^ (c ^^^ d) = a ^^^ c ^^^ (b ^^^ d) := by
  rw [BitVec.xor_assoc, ← BitVec.xor_assoc b, BitVec.xor_comm b c, BitVec.xor_assoc c, ← BitVec.xor_assoc]

/-- The update is linear over GF(2) (rule R46). -/
theorem advance_xor (x y : GenState) : advance (x.xor y) = (advance x).xor (advance y) := by
  obtain ⟨a, b, c, d⟩ := x
  obtain ⟨a', b', c', d'⟩ := y
  simp only [GenState.xor, advance_mk, GenState.mk.injEq, BitVec.shiftLeft_xor_distrib, ← rotl64_xor]
  refine ⟨?_, ?_, ?_, ?_⟩
  · rw [word_xor_xor_xor_comm a a', word_xor_xor_xor_comm (a ^^^ b)]
  · rw [word_xor_xor_xor_comm a a', word_xor_xor_xor_comm (a ^^^ b)]
  · rw [word_xor_xor_xor_comm a a', word_xor_xor_xor_comm (a ^^^ c)]
  · rw [word_xor_xor_xor_comm b b']

theorem iterate_advance_zero (n : Nat) : advance^[n] GenState.zero = GenState.zero := by
  induction n with
  | zero => rfl
  | succ n ih => rw [Function.iterate_succ_apply', ih, advance_zero]

theorem iterate_advance_xor (n : Nat) : ∀ x y : GenState,
    advance^[n] (x.xor y) = (advance^[n] x).xor (advance^[n] y) := by
  induction n with
  | zero => intros; rfl
  | succ n ih => intro x y; simp only [Function.iterate_succ_apply', ih, advance_xor]

/-- Two generator states with the same words are the same. -/
theorem genState_ext {g h : GenState} (e : ∀ k, g.word k = h.word k) : g = h := by
  obtain ⟨a, b, c, d⟩ := g
  obtain ⟨a', b', c', d'⟩ := h
  have h0 : a = a' := e 0
  have h1 : b = b' := e 1
  have h2 : c = c' := e 2
  have h3 : d = d' := e 3
  rw [h0, h1, h2, h3]

/-- Reading a word after a write of one. -/
theorem word_setWord (g : GenState) (i : Nat) (v : Word) (k : Fin 4) :
    (g.setWord i v).word k = if k.val = i then v else g.word k := by
  match i with
  | 0 | 1 | 2 | 3 => fin_cases k <;> rfl
  | n + 4 => rw [if_neg (by omega)]; rfl

end Sys2Proof.Machine
end

