-- ==== Sys2Proof/Laws/Poly.lean ====
section
/-! SUPPORT. Polynomials over GF(2) in the update map, as numbers whose bit `j` is the coefficient of `T^j` (42_jump.md
section 4): their algebra, the characteristic polynomial, and squaring modulo it. The functions the kernel evaluates are
written with the recursor, and each passes on numbers already computed. -/

namespace Sys2Proof.Machine

/-- The polynomial with the bits `j < n` of `p`, in the update map, applied to `x`. -/
def polyEval (p : Nat) (x : GenState) : Nat → GenState
  | 0 => GenState.zero
  | n + 1 => if p.testBit n then (polyEval p x n).xor (advance^[n] x) else polyEval p x n

theorem polyEval_xor_right (p : Nat) (x y : GenState) :
    ∀ n, polyEval p (x.xor y) n = (polyEval p x n).xor (polyEval p y n) := by
  intro n
  induction n with
  | zero => simp [polyEval]
  | succ n ih =>
    simp only [polyEval, ih, iterate_advance_xor]
    split
    · rw [xor_xor_xor_comm]
    · rfl

theorem polyEval_iterate (p : Nat) (x : GenState) (m : Nat) :
    ∀ n, polyEval p (advance^[m] x) n = advance^[m] (polyEval p x n) := by
  intro n
  induction n with
  | zero => simp only [polyEval, iterate_advance_zero]
  | succ n ih =>
    simp only [polyEval, ih]
    split
    · rw [iterate_advance_xor, ← Function.iterate_add_apply, ← Function.iterate_add_apply, Nat.add_comm]
    · rfl

theorem polyEval_xor_left (p q : Nat) (x : GenState) :
    ∀ n, polyEval (p ^^^ q) x n = (polyEval p x n).xor (polyEval q x n) := by
  intro n
  induction n with
  | zero => simp [polyEval]
  | succ n ih =>
    simp only [polyEval, ih, Nat.testBit_xor]
    cases p.testBit n <;> cases q.testBit n <;> simp [xor_assoc]
    · rw [xor_comm (advance^[n] x)]
    · rw [← xor_assoc (advance^[n] x), xor_comm (advance^[n] x) (polyEval q x n), xor_assoc, xor_self, xor_zero]

theorem polyEval_zero (x : GenState) : ∀ n, polyEval 0 x n = GenState.zero := by
  intro n
  induction n with
  | zero => rfl
  | succ n ih => simp [polyEval, ih]

/-- Bits above the degree add nothing. -/
theorem polyEval_of_le {p m : Nat} (x : GenState) (h : p < 2 ^ m) :
    ∀ n, m ≤ n → polyEval p x n = polyEval p x m := by
  intro n hn
  induction n, hn using Nat.le_induction with
  | base => rfl
  | succ n hn ih =>
    rw [polyEval, Nat.testBit_lt_two_pow (lt_of_lt_of_le h (Nat.pow_le_pow_right (by omega) hn)), ih]
    rfl

/-- Multiplication by `T^k`. -/
theorem polyEval_shiftLeft (p : Nat) (x : GenState) (k : Nat) :
    ∀ n, polyEval (p <<< k) x (n + k) = advance^[k] (polyEval p x n) := by
  intro n
  rw [← polyEval_iterate]
  induction n with
  | zero =>
    have low : ∀ m, m ≤ k → polyEval (p <<< k) x m = GenState.zero := by
      intro m
      induction m with
      | zero => intro _; rfl
      | succ m ih => intro h; rw [polyEval, ih (by omega)]; simp; omega
    rw [Nat.zero_add, low k (le_refl _)]
    rfl
  | succ n ih =>
    have bit : (p <<< k).testBit (n + k) = p.testBit n := by simp
    rw [show n + 1 + k = (n + k) + 1 by omega, polyEval, ih, polyEval, bit, ← Function.iterate_add_apply]

/-- The polynomial `T^n`. -/
theorem polyEval_pow {n m : Nat} (x : GenState) (h : n < m) : polyEval (1 <<< n) x m = advance^[n] x := by
  obtain ⟨k, rfl⟩ : ∃ k, m = (k + 1) + n := ⟨m - n - 1, by omega⟩
  rw [polyEval_shiftLeft, polyEval_of_le (m := 1) x (by norm_num) _ (by omega)]
  simp [polyEval]

/-! ## The characteristic polynomial -/

/-- The polynomial `p` of 42_jump.md section 4 item 1. -/
def charPoly : Nat := 0x1_0003C03C3F3ECB19_04B4EDCF26259F85_0280002BCEFD1A5E_9D116F2BB0F0F001

/-- The number, computed before it is passed on. -/
noncomputable def forced {α : Type} (m : Nat) (k : Nat → α) : α :=
  Nat.rec (motive := fun _ => α) (k 0) (fun n _ => k (n + 1)) m

theorem forced_eq {α : Type} (m : Nat) (k : Nat → α) : forced m k = k m := by cases m <;> rfl

/-- Whether the bits of the characteristic polynomial from `n - 1` down, by Horner's rule on the state with the words
`a b c d`, where each bit adds `2^k` to the third word, end in the zero state. -/
noncomputable def hornerZero (k : Nat) (n : Nat) : Nat → Nat → Nat → Nat → Bool :=
  Nat.rec (motive := fun _ => Nat → Nat → Nat → Nat → Bool)
    (fun a b c d => Nat.beq (Nat.add (Nat.add a b) (Nat.add c d)) 0)
    (fun n ih a b c d =>
      forced (Nat.xor (Nat.xor a b) d) fun a' =>
      forced (Nat.xor (Nat.xor a b) c) fun b' =>
      forced (Nat.xor (Nat.xor (Nat.xor a c) (Nat.mod (Nat.shiftLeft b 17) (2 ^ 64)))
        (Nat.mul (Nat.land 1 (Nat.shiftRight charPoly n)) (Nat.shiftLeft 1 k))) fun c' =>
      forced (Nat.xor b d) fun e =>
      forced (Nat.lor (Nat.mod (Nat.shiftLeft e 45) (2 ^ 64)) (Nat.shiftRight e 19)) fun d' =>
      ih a' b' c' d') n

/-- `hornerZero` for the numbers `k < m`. -/
noncomputable def hornerZeroBelow (m : Nat) : Bool :=
  Nat.rec (motive := fun _ => Bool) true (fun k ih => and (hornerZero k 257 0 0 0 0) ih) m

theorem hornerZeroBelow_64 : hornerZeroBelow 64 = true := by decide +kernel

/-- Horner's rule from the state `g`: each bit adds `e`. -/
def horner (p : Nat) (e : GenState) : Nat → GenState → GenState
  | 0, g => g
  | n + 1, g => horner p e n (if p.testBit n then (advance g).xor e else advance g)

theorem horner_eq (p : Nat) (e : GenState) :
    ∀ n g, horner p e n g = (polyEval p e n).xor (advance^[n] g) := by
  intro n
  induction n with
  | zero => intro g; simp [horner, polyEval]
  | succ n ih =>
    intro g
    rw [horner, ih, polyEval, Function.iterate_succ_apply]
    split
    · rw [iterate_advance_xor, xor_assoc, xor_comm (advance^[n] e)]
    · rfl

/-- Selecting a number by a bit, as the kernel computes it. -/
theorem selectBit (p n m : Nat) :
    Nat.mul (Nat.land 1 (Nat.shiftRight p n)) m = if p.testBit n then m else 0 := by
  have e : Nat.land 1 (Nat.shiftRight p n) = if p.testBit n then 1 else 0 := by
    show 1 &&& p >>> n = _
    rw [Nat.testBit]
    rcases Nat.mod_two_eq_zero_or_one (p >>> n) with z | z <;> simp [z]
  rw [e]
  split <;> simp [Nat.mul_eq]

theorem hornerZero_succ (k n a b c d : Nat) : hornerZero k (n + 1) a b c d =
    hornerZero k n (a ^^^ b ^^^ d) (a ^^^ b ^^^ c)
      (a ^^^ c ^^^ (b <<< 17 % 2 ^ 64) ^^^ (if charPoly.testBit n then 1 <<< k else 0))
      ((b ^^^ d) <<< 45 % 2 ^ 64 ||| (b ^^^ d) >>> 19) := by
  rw [← selectBit]
  have e : hornerZero k (n + 1) a b c d =
    (forced (a ^^^ b ^^^ d) fun a' => forced (a ^^^ b ^^^ c) fun b' =>
      forced (Nat.xor (a ^^^ c ^^^ (b <<< 17 % 2 ^ 64))
        (Nat.mul (Nat.land 1 (Nat.shiftRight charPoly n)) (1 <<< k))) fun c' =>
      forced (b ^^^ d) fun e => forced (e <<< 45 % 2 ^ 64 ||| e >>> 19) fun d' => hornerZero k n a' b' c' d') := rfl
  simp only [e, forced_eq]
  rfl

/-- What `hornerZero` computes. -/
theorem hornerZero_sound (k : Nat) (hk : k < 64) : ∀ (n : Nat) (g : GenState),
    hornerZero k n g.s0.toNat g.s1.toNat g.s2.toNat g.s3.toNat = true →
    horner charPoly ⟨0#64, 0#64, 1#64 <<< k, 0#64⟩ n g = GenState.zero := by
  intro n
  induction n with
  | zero =>
    intro g h
    have e := Nat.eq_of_beq_eq_true (show Nat.beq _ 0 = true from h)
    simp only [Nat.add_eq] at e
    obtain ⟨a, b, c, d⟩ := g
    simp only [horner, GenState.zero, GenState.mk.injEq, ← BitVec.toNat_inj, BitVec.toNat_ofNat]
    simp only at e
    omega
  | succ n ih =>
    rintro ⟨a, b, c, d⟩ h
    rw [horner]
    apply ih
    rw [hornerZero_succ] at h
    refine Eq.trans ?_ h
    have one : (1 % 2 ^ 64) <<< k % 2 ^ 64 = 1 <<< k := by
      rw [Nat.shiftLeft_eq, Nat.shiftLeft_eq, Nat.mod_eq_of_lt (a := 1) (by norm_num), one_mul,
        Nat.mod_eq_of_lt (Nat.pow_lt_pow_right (by omega) hk)]
    cases t : charPoly.testBit n <;>
      simp only [advance_mk, GenState.xor, rotl64, shl64, shr64, BitVec.toNat_xor, BitVec.toNat_or,
        BitVec.toNat_shiftLeft, BitVec.toNat_ushiftRight, BitVec.toNat_ofNat, one, if_true, if_false,
        Bool.false_eq_true, Nat.xor_zero, Nat.zero_mod]

theorem hornerZero_below {m : Nat} (h : hornerZeroBelow m = true) (k : Nat) (hk : k < m) :
    hornerZero k 257 0 0 0 0 = true := by
  induction m with
  | zero => omega
  | succ m ih =>
    have e : (hornerZero m 257 0 0 0 0 && hornerZeroBelow m) = true := h
    rw [Bool.and_eq_true] at e
    by_cases c : k = m
    · rw [c]; exact e.1
    · exact ih e.2 (by omega)

/-- The characteristic polynomial in the update map, on a third word with one bit. -/
theorem charPoly_bit (k : Nat) (hk : k < 64) :
    polyEval charPoly ⟨0#64, 0#64, 1#64 <<< k, 0#64⟩ 257 = GenState.zero := by
  have h := hornerZero_sound k hk 257 GenState.zero (hornerZero_below hornerZeroBelow_64 k hk)
  rwa [horner_eq, iterate_advance_zero, xor_zero] at h

/-- A word from its low bits. -/
theorem word_low_bits (P : Word → Prop) (zero : P 0#64) (add : ∀ v w, P v → P w → P (v ^^^ w))
    (bit : ∀ k < 64, P (1#64 <<< k)) (w : Word) : P w := by
  have low : ∀ n, n ≤ 64 → P (BitVec.ofNat 64 (w.toNat % 2 ^ n)) := by
    intro n
    induction n with
    | zero => intro _; rw [Nat.pow_zero, Nat.mod_one]; exact zero
    | succ n ih =>
      intro h
      have split : BitVec.ofNat 64 (w.toNat % 2 ^ (n + 1)) =
          BitVec.ofNat 64 (w.toNat % 2 ^ n) ^^^ (if w.getLsbD n then 1#64 <<< n else 0#64) := by
        apply BitVec.eq_of_getLsbD_eq
        intro i hi
        rw [BitVec.getLsbD_xor, BitVec.getLsbD_ofNat, BitVec.getLsbD_ofNat, Nat.testBit_mod_two_pow,
          Nat.testBit_mod_two_pow]
        rcases Nat.lt_trichotomy i n with c | rfl | c
        · split <;> simp [hi, c, show i < n + 1 by omega]
        · have t : w.toNat.testBit i = w.getLsbD i := BitVec.testBit_toNat w
          rw [t]
          cases w.getLsbD i <;> simp [hi]
        · split <;> simp [show ¬ i < n + 1 by omega, show ¬ i < n by omega, show ¬ i - n = 0 by omega]
      rw [split]
      apply add _ _ (ih (by omega))
      split
      · exact bit n (by omega)
      · exact zero
  have h := low 64 (le_refl _)
  rwa [Nat.mod_eq_of_lt w.isLt, BitVec.ofNat_toNat, BitVec.setWidth_eq] at h

theorem rotl64_19_45 (x : Word) : rotl64 (rotl64 x 19) 45 = x := by
  ext i hi
  simp only [rotl64, shl64, shr64]
  simp
  grind

/-- The update map is a root of its characteristic polynomial (42_jump.md section 4 item 1). -/
theorem charPoly_root (x : GenState) : polyEval charPoly x 257 = GenState.zero := by
  have add : ∀ {x y : GenState}, polyEval charPoly x 257 = GenState.zero →
      polyEval charPoly y 257 = GenState.zero → polyEval charPoly (x.xor y) 257 = GenState.zero := by
    intro x y hx hy; rw [polyEval_xor_right, hx, hy, xor_self]
  have next : ∀ {x : GenState}, polyEval charPoly x 257 = GenState.zero →
      polyEval charPoly (advance x) 257 = GenState.zero := by
    intro x hx
    have h := polyEval_iterate charPoly x 1 257
    rw [Function.iterate_one] at h
    rw [h, hx, advance_zero]
  have third : ∀ w, polyEval charPoly ⟨0#64, 0#64, w, 0#64⟩ 257 = GenState.zero := by
    apply word_low_bits
    · exact (polyEval_xor_right charPoly GenState.zero GenState.zero 257).trans (xor_self _)
    · intro v w hv hw
      have h := add hv hw
      simpa only [GenState.xor, BitVec.xor_zero] using h
    · exact charPoly_bit
  have second : ∀ w, polyEval charPoly ⟨0#64, w, 0#64, 0#64⟩ 257 = GenState.zero := by
    intro w
    have h := add (next (third w)) (third w)
    have e : rotl64 0#64 45 = 0#64 := by decide
    simpa [advance_mk, GenState.xor, e] using h
  have outer : ∀ w, polyEval charPoly ⟨w, 0#64, 0#64, rotl64 w 45⟩ 257 = GenState.zero := by
    intro w
    have h := add (add (next (second w)) (second w)) (third (w <<< 17))
    simpa [advance_mk, GenState.xor] using h
  have first : ∀ w, polyEval charPoly ⟨w, 0#64, 0#64, 0#64⟩ 257 = GenState.zero := by
    intro w
    have h := add (add (add (next (outer w)) (second w)) (third w)) (outer (rotl64 w 45))
    simpa [advance_mk, GenState.xor, BitVec.xor_assoc] using h
  have fourth : ∀ w, polyEval charPoly ⟨0#64, 0#64, 0#64, w⟩ 257 = GenState.zero := by
    intro w
    have h := add (outer (rotl64 w 19)) (first (rotl64 w 19))
    simpa [GenState.xor, rotl64_19_45] using h
  obtain ⟨a, b, c, d⟩ := x
  have h := add (add (first a) (second b)) (add (third c) (fourth d))
  simpa [GenState.xor] using h

/-! ## Squaring modulo the characteristic polynomial -/

/-- `acc` plus the square of the polynomial with the bits `j < n` of `p`. -/
noncomputable def addSquare (p : Nat) (n : Nat) : Nat → Nat :=
  Nat.rec (motive := fun _ => Nat → Nat) (fun acc => acc)
    (fun n ih acc => forced
      (Nat.xor acc (Nat.mul (Nat.land 1 (Nat.shiftRight p n)) (Nat.shiftLeft 1 (Nat.mul 2 n)))) ih) n

/-- The bits of `m` from `n + 255` down to 256, cleared by adding multiples of the characteristic polynomial. -/
noncomputable def reduce (n : Nat) : Nat → Nat :=
  Nat.rec (motive := fun _ => Nat → Nat) (fun m => m)
    (fun n ih m => forced
      (Nat.xor m (Nat.mul (Nat.land 1 (Nat.shiftRight m (Nat.add n 256))) (Nat.shiftLeft charPoly n))) ih) n

/-- The square of a polynomial modulo the characteristic polynomial. -/
noncomputable def squareMod (m : Nat) : Nat := forced (addSquare m 256 0) (reduce 256)

/-- `n` squarings. -/
noncomputable def squareModIter (n : Nat) : Nat → Nat :=
  Nat.rec (motive := fun _ => Nat → Nat) (fun m => m) (fun _ ih m => forced (squareMod m) ih) n

theorem addSquare_succ (p n acc : Nat) :
    addSquare p (n + 1) acc = addSquare p n (acc ^^^ (if p.testBit n then 1 <<< (2 * n) else 0)) := by
  rw [← selectBit]
  show forced _ _ = _
  rw [forced_eq]
  rfl

theorem reduce_succ (n m : Nat) :
    reduce (n + 1) m = reduce n (m ^^^ (if m.testBit (n + 256) then charPoly <<< n else 0)) := by
  rw [← selectBit]
  show forced _ _ = _
  rw [forced_eq]
  rfl

theorem addSquare_lt (p N : Nat) : ∀ n acc, 2 * n ≤ N → acc < 2 ^ N → addSquare p n acc < 2 ^ N := by
  intro n
  induction n with
  | zero => intro acc _ h; exact h
  | succ n ih =>
    intro acc hn h
    rw [addSquare_succ]
    apply ih _ (by omega)
    apply Nat.xor_lt_two_pow h
    split
    · rw [Nat.shiftLeft_eq, one_mul]; exact Nat.pow_lt_pow_right (by omega) (by omega)
    · exact Nat.two_pow_pos N

/-- Over GF(2) the square of a sum is the sum of the squares. -/
theorem polyEval_addSquare (p : Nat) (x : GenState) (N : Nat) : ∀ n acc, 2 * n ≤ N →
    polyEval (addSquare p n acc) x N = (polyEval acc x N).xor (polyEval p (polyEval p x n) n) := by
  intro n
  induction n with
  | zero => intro acc _; simp [addSquare, polyEval]
  | succ n ih =>
    intro acc hn
    rw [addSquare_succ, ih _ (by omega), polyEval_xor_left, xor_assoc]
    congr 1
    simp only [polyEval]
    split
    · rw [polyEval_pow x (by omega), polyEval_xor_right, iterate_advance_xor, polyEval_iterate,
        ← Function.iterate_add_apply, ← two_mul, xor_assoc, ← xor_assoc (advance^[n] _) (advance^[n] _), xor_self,
        zero_xor, xor_comm]
    · rw [polyEval_zero, zero_xor]

theorem charPoly_lt : charPoly < 2 ^ 257 := by decide +kernel

theorem reduce_lt : ∀ n m, m < 2 ^ (n + 256) → reduce n m < 2 ^ 256 := by
  intro n
  induction n with
  | zero => intro m h; rwa [Nat.zero_add] at h
  | succ n ih =>
    intro m h
    rw [reduce_succ]
    apply ih
    apply Nat.lt_pow_two_of_testBit
    intro j hj
    have top : charPoly.testBit 256 = true := by decide +kernel
    have high : ∀ i, 257 ≤ i → charPoly.testBit i = false := fun i hi =>
      Nat.testBit_lt_two_pow (lt_of_lt_of_le charPoly_lt
        (Nat.pow_le_pow_right (by omega) hi))
    rcases Nat.lt_or_ge (n + 256) j with gt | le
    · have hm : m.testBit j = false :=
        Nat.testBit_lt_two_pow (lt_of_lt_of_le h (Nat.pow_le_pow_right (by omega) (by omega)))
      split
      · simp [hm, high (j - n) (by omega)]
      · simpa using hm
    · obtain rfl : j = n + 256 := by omega
      split
      · rename_i t; simp [t, top]
      · rename_i t; simpa using t

theorem polyEval_reduce (x : GenState) (N : Nat) : ∀ n m, n + 256 ≤ N →
    polyEval (reduce n m) x N = polyEval m x N := by
  intro n
  induction n with
  | zero => intro m _; rfl
  | succ n ih =>
    intro m h
    rw [reduce_succ, ih _ (by omega), polyEval_xor_left]
    split
    · obtain ⟨k, rfl⟩ : ∃ k, N = (257 + k) + n := ⟨N - 257 - n, by omega⟩
      rw [polyEval_shiftLeft, polyEval_of_le (m := 257) x charPoly_lt _ (by omega), charPoly_root,
        iterate_advance_zero, xor_zero]
    · rw [polyEval_zero, xor_zero]

/-- Squaring a polynomial applies it twice. -/
theorem polyEval_squareMod (m : Nat) (x : GenState) :
    polyEval (squareMod m) x 256 = polyEval m (polyEval m x 256) 256 := by
  rw [squareMod, forced_eq, ← polyEval_of_le x (reduce_lt 256 _ (addSquare_lt m 512 256 0 (by omega) (Nat.two_pow_pos 512)))
    512 (by omega), polyEval_reduce x 512 256 _ (by omega), polyEval_addSquare m x 512 256 0 (by omega), polyEval_zero,
    zero_xor]

/-- A polynomial that advances by `e` steps, squared `n` times, advances by `e * 2^n`. -/
theorem polyEval_squareModIter (n : Nat) : ∀ (m e : Nat), (∀ x, polyEval m x 256 = advance^[e] x) →
    ∀ x, polyEval (squareModIter n m) x 256 = advance^[e * 2 ^ n] x := by
  induction n with
  | zero =>
    intro m e h x
    have start : squareModIter 0 m = m := rfl
    rw [start, h, Nat.pow_zero, Nat.mul_one]
  | succ n ih =>
    intro m e h x
    have step : squareModIter (n + 1) m = squareModIter n (squareMod m) := forced_eq _ _
    have twice : ∀ y, polyEval (squareMod m) y 256 = advance^[e * 2] y := by
      intro y; rw [polyEval_squareMod, h, h, ← Function.iterate_add_apply, ← mul_two]
    rw [step, ih _ _ twice, mul_assoc, ← pow_succ']

/-- Sixteen squarings, with the kernel's evaluation of them as the hypothesis. (Longer runs cost it more per squaring.) -/
theorem polyEval_sixteen {a b e : Nat} (h : Nat.beq (squareModIter 16 a) b = true)
    (ha : ∀ x, polyEval a x 256 = advance^[2 ^ e] x) (x : GenState) : polyEval b x 256 = advance^[2 ^ (e + 16)] x := by
  rw [← Nat.eq_of_beq_eq_true h, polyEval_squareModIter 16 a _ ha, ← Nat.pow_add]

/-- The polynomial `T` itself, from which the squarings start. -/
theorem polyEval_two (x : GenState) : polyEval 2 x 256 = advance^[2 ^ 0] x := polyEval_pow (n := 1) x (by omega)

theorem polyEval_pow_16 (x : GenState) : polyEval
    0xD87F8CE230817A21_EF43BEAA06F02FB8_92AE7CA370C0BF6B_7E89AC5CA2FBF2C7 x 256 =
    advance^[2 ^ 16] x :=
  polyEval_sixteen (by decide +kernel) polyEval_two x

theorem polyEval_pow_32 (x : GenState) : polyEval
    0x0E055D3520FDB9D7_214FAFC0FBDBC208_7D8D0632BD08E6AC_58120D583C112F69 x 256 =
    advance^[2 ^ 32] x :=
  polyEval_sixteen (by decide +kernel) polyEval_pow_16 x

theorem polyEval_pow_48 (x : GenState) : polyEval
    0x5F728BE2C97E9066_474579292F705634_F825539DEE5E4763_F11FB4FAEA62C7F1 x 256 =
    advance^[2 ^ 48] x :=
  polyEval_sixteen (by decide +kernel) polyEval_pow_32 x

theorem polyEval_pow_64 (x : GenState) : polyEval
    0x12E4A2FBFC19BFF9_34FAFF184785C20A_B60D6C5B8C78F106_B13C16E8096F0754 x 256 =
    advance^[2 ^ 64] x :=
  polyEval_sixteen (by decide +kernel) polyEval_pow_48 x

theorem polyEval_pow_80 (x : GenState) : polyEval
    0x2C09EBB60B81941A_5D23C239088B488E_0355DAB5AAADA356_6C1A4D1BEE4CFB25 x 256 =
    advance^[2 ^ 80] x :=
  polyEval_sixteen (by decide +kernel) polyEval_pow_64 x

theorem polyEval_pow_96 (x : GenState) : polyEval
    0x31EEBB6C82A9615F_B27C05962EA56A13_CDB45D7DEF42C317_148C356C3114B7A9 x 256 =
    advance^[2 ^ 96] x :=
  polyEval_sixteen (by decide +kernel) polyEval_pow_80 x

theorem polyEval_pow_112 (x : GenState) : polyEval
    0x19809DF824096BA1_9A5475C8D2FB2D20_E903694ADA9D6795_FF09F37DF22EAB9A x 256 =
    advance^[2 ^ 112] x :=
  polyEval_sixteen (by decide +kernel) polyEval_pow_96 x

/-- The polynomial with the bits of JUMP's table advances by `2^128` steps. -/
theorem polyEval_pow_128 (x : GenState) : polyEval
    0x39ABDC4529B1661C_A9582618E03FC9AA_D5A61266F0C9392C_180EC6D33CFD0ABA x 256 =
    advance^[2 ^ 128] x :=
  polyEval_sixteen (by decide +kernel) polyEval_pow_112 x

theorem polyEval_pow_144 (x : GenState) : polyEval
    0xB81875D0F4F6F253_962C90A866EA6719_C51212C8B1AA2787_3DCD32F39276A95F x 256 =
    advance^[2 ^ 144] x :=
  polyEval_sixteen (by decide +kernel) polyEval_pow_128 x

theorem polyEval_pow_160 (x : GenState) : polyEval
    0xF567382197055BF0_4823B45B89DC689C_69E6E6E431A2D40B_C04B4F9C5D26C200 x 256 =
    advance^[2 ^ 160] x :=
  polyEval_sixteen (by decide +kernel) polyEval_pow_144 x

theorem polyEval_pow_176 (x : GenState) : polyEval
    0x2432AAA71D816E63_259022FE05F4023E_0B4DF9E68366344A_053FF7E4E8581163 x 256 =
    advance^[2 ^ 176] x :=
  polyEval_sixteen (by decide +kernel) polyEval_pow_160 x

/-- The polynomial with the bits of LJUMP's table advances by `2^192` steps. -/
theorem polyEval_pow_192 (x : GenState) : polyEval
    0x39109BB02ACBE635_77710069854EE241_C5004E441C522FB3_76E15D3EFEFDCBBF x 256 =
    advance^[2 ^ 192] x :=
  polyEval_sixteen (by decide +kernel) polyEval_pow_176 x

end Sys2Proof.Machine
end

