-- ==== Sys2Proof/Laws/Step.lean ====
section
/-! SUPPORT. Inversion of a step: if it answers a state, which of a short list of cases that is. The invariants and the
whole-machine rules are case analyses over it. -/

namespace Sys2Proof.Machine

/-- What is said of a fault an instruction meets: it is never the code OK. -/
theorem faultOf_ne_ok {i : Instr} {b : Bool} {c : Code} (h : faultOf i b = some c) : c ≠ .ok := by
  rintro rfl
  cases i <;> simp only [faultOf] at h <;> (repeat' split at h) <;> simp_all

/-- An instruction that meets no fault is SEED, or the engine is seeded. -/
theorem faultOf_eq_none {i : Instr} {b : Bool} (h : faultOf i b = none) : b = true ∨ ∃ v, i = .seed v := by
  cases b
  · cases i <;> simp_all [faultOf]
  · exact .inl rfl

/-- Performing a command word answers a state, with one response; it is a completion or a fault. -/
theorem runCommand_next (cw : CmdWord) (s : State) :
    ∃ t r, runCommand cw s = .next t ∧ t.rsp = some r ∧ t.activity = .idle ∧ s.sameHostSide t ∧
      (r.code = .ok → t.err = s.err) ∧ (r.code ≠ .ok → t.err = true ∧ r.value = 0#64) ∧
      ((∃ i, decode cw = .ok i ∧ t = completed i s ∧ (s.seeded = true ∨ ∃ v, i = .seed v) ∧ r.code = .ok) ∨
        ∃ c, c ≠ .ok ∧ t = raiseFault c s ∧ r.code = c) := by
  rcases runCommand_cases cw s with ⟨-, h⟩ | ⟨i, hi, h⟩
  · exact ⟨_, _, h, rfl, rfl, ⟨rfl, rfl, rfl, rfl, rfl⟩, by simp, fun _ => ⟨rfl, rfl⟩,
      .inr ⟨_, by simp, rfl, rfl⟩⟩
  · rw [exec_eq] at h
    cases hf : faultOf i s.seeded with
    | none =>
      rw [hf] at h
      exact ⟨_, _, h, rfl, rfl, ⟨rfl, rfl, rfl, rfl, rfl⟩, fun _ => rfl, fun h => absurd rfl h,
        .inl ⟨i, hi, rfl, faultOf_eq_none hf, rfl⟩⟩
    | some c =>
      rw [hf] at h
      exact ⟨_, _, h, rfl, rfl, ⟨rfl, rfl, rfl, rfl, rfl⟩, fun h => absurd h (faultOf_ne_ok hf),
        fun _ => ⟨rfl, rfl⟩, .inr ⟨c, faultOf_ne_ok hf, rfl, rfl⟩⟩

/-- Beginning a command in small steps enters a loop, or performs the command whole. -/
theorem beginCommand_next (cw : CmdWord) (s : State) :
    (∃ v, decode cw = .ok (.seed v) ∧ beginCommand cw s = .next (s.setActivity (.seedLoop v 0))) ∨
    (∃ t, s.seeded = true ∧ beginCommand cw s = .next (s.setActivity (.jumpLoop t GenState.zero 0))) ∨
    beginCommand cw s = runCommand cw s := by
  rcases beginCommand_cases cw with ⟨v, hd, h⟩ | ⟨t, i, hd, hi, h⟩ | h
  · exact .inl ⟨v, hd, h s⟩
  · cases hs : s.seeded
    · refine .inr (.inr ?_)
      rw [h, runCommand, hd]
      simp only [exec_eq]
      rcases hi with rfl | rfl <;> simp [faultOf, hs, beginJump, whenSeeded]
    · refine .inr (.inl ⟨t, rfl, ?_⟩)
      rw [h, beginJump, whenSeeded_of_seeded hs]
  · exact .inr (.inr (h s))

/-- The cases of the engine's move, from `s` to the second state. -/
inductive EngineStep (s : State) : State → Prop
  | inReset : s.rst = true → EngineStep s s
  | notAccepted : s.activity = .idle → (s.cmd = none ∨ s.cmdReady = false) → EngineStep s s
  | accept (cw) : s.cmd = some cw → s.cmdReady = true → EngineStep s { s with cmd := none, activity := .accepted cw }
  | run (cw t) : s.rst = false → s.activity = .accepted cw → runCommand cw s = .next t → EngineStep s t
  | beginSeed (cw v) : s.rst = false → s.activity = .accepted cw → decode cw = .ok (.seed v) →
      EngineStep s (s.setActivity (.seedLoop v 0))
  | beginJump (cw t) : s.rst = false → s.activity = .accepted cw → s.seeded = true →
      EngineStep s (s.setActivity (.jumpLoop t GenState.zero 0))
  | seedIteration (z i) : s.rst = false → s.activity = .seedLoop z i → EngineStep s (seedSmallStep z i s)
  | jumpIteration (t acc j) : s.rst = false → s.activity = .jumpLoop t acc j → EngineStep s (jumpSmallStep t acc j s)

/-- The cases of a step, from `s` to the second state. -/
inductive StepCases (s : State) : State → Prop
  | engine (t) : (s.nextMove = .engine ∨ s.nextMove = .engineSmall) → EngineStep s.popMove t → StepCases s t
  | assertRst : s.nextMove = .assertRst → StepCases s (assertReset s.popMove)
  | releaseRst : s.nextMove = .releaseRst → StepCases s (releaseReset s.popMove)
  | offer (cw) : s.nextMove = .offer cw → StepCases s (offerCommand cw s.popMove)
  | withdraw : s.nextMove = .withdraw → StepCases s (withdrawCommand s.popMove)
  | take (r) : s.nextMove = .take → s.rsp = some r →
      StepCases s { s.popMove with rsp := none, taken := s.taken ++ [r] }
  | takeNothing : s.nextMove = .take → s.rsp = none → StepCases s s.popMove

theorem EngineStep.of_engineMove {s t : State} {perform : CmdWord → State → Host.Outcome State Fault Refusal}
    (hp : perform = runCommand ∨ perform = beginCommand) (h : engineMove perform s = .next t) : EngineStep s t := by
  rcases engineMove_cases perform s with ⟨h1, h2⟩ | ⟨h0, h1, h2⟩ | ⟨cw, h0, h1, h2⟩ | ⟨z, i, h0, h1, h2⟩ |
    ⟨tb, acc, j, h0, h1, h2⟩ <;> rw [h2] at h
  · cases h; exact .inReset h1
  · cases h
    rcases acceptCommand_cases s with ⟨cw, hc, hr, he⟩ | ⟨hn, he⟩ <;> rw [he]
    · exact .accept cw hc hr
    · exact .notAccepted h1 hn
  · rcases hp with rfl | rfl
    · exact .run cw t h0 h1 h
    · rcases beginCommand_next cw s with ⟨v, hd, he⟩ | ⟨tb, hs, he⟩ | he <;> rw [he] at h
      · cases h; exact .beginSeed cw v h0 h1 hd
      · cases h; exact .beginJump cw tb h0 h1 hs
      · exact .run cw t h0 h1 h
  · cases h; exact .seedIteration z i h0 h1
  · cases h; exact .jumpIteration tb acc j h0 h1

/-- Inversion of a step. -/
theorem step_cases {s t : State} (h : step s = .next t) : StepCases s t := by
  rw [step_eq] at h
  cases hm : s.nextMove <;> rw [hm] at h <;> simp only [runMove] at h
  · exact .engine _ (.inl hm) (.of_engineMove (.inl rfl) h)
  · exact .engine _ (.inr hm) (.of_engineMove (.inr rfl) h)
  · cases h; exact .assertRst hm
  · cases h; exact .releaseRst hm
  · cases h; exact .offer _ hm
  · cases h; exact .withdraw hm
  · cases h
    rcases takeResponse_cases s.popMove with ⟨r, hr, he⟩ | ⟨hr, he⟩ <;> rw [he]
    · exact .take r hm hr
    · exact .takeNothing hm hr

/-- A run of no steps. -/
@[simp] theorem runSteps_zero (s : State) : runSteps 0 s = .next s := rfl

/-- A run is one step and then the rest of it. -/
theorem runSteps_succ {s t : State} (n : Nat) (h : step s = .next t) : runSteps (n + 1) s = runSteps n t := by
  simp only [runSteps, h]

/-- A run of `Host.Core` whose first step answers a state. -/
theorem core_run_succ (M : Host.Core) (n : Nat) {s t : M.State} (h : M.step s = .next t) :
    M.run (n + 1) s = M.run n t := by
  simp only [Host.Core.run, h]

/-- The model's runs are those of `Host.Core`, where no step stops (and none does). -/
theorem runSteps_eq_core_run (goesOn : ∀ s : State, ∃ t, step s = .next t) (n : Nat) :
    ∀ s : State, runSteps n s = Sys2Proof.core.run n s := by
  induction n with
  | zero => intro s; rfl
  | succ n ih =>
    intro s
    obtain ⟨t, h⟩ := goesOn s
    rw [runSteps_succ n h, ih t]
    exact (core_run_succ Sys2Proof.core n (s := s) h).symm

/-- The step when the head of the schedule is known. -/
theorem step_of_sched {s : State} {m : Move} {rest : List Move} (h : s.sched = m :: rest) :
    step s = runMove m { s with sched := rest } := by
  rw [step, State.nextMove, State.popMove, h]
  rfl

section

variable {s : State} {m : Move} {rest : List Move} (hm : m = .engine ∨ m = .engineSmall)
  (hs : s.sched = m :: rest) (hr : s.rst = false)
include hm hs hr

/-- An engine's move when no operation is in progress. -/
theorem step_idle (ha : s.activity = .idle) : step s = .next (acceptCommand { s with sched := rest }) := by
  rw [step_of_sched hs]
  rcases hm with rfl | rfl <;> exact engineMove_idle (s := { s with sched := rest }) hr ha

/-- An engine's move inside SEED. -/
theorem step_seedLoop {z : Word} {i : Nat} (ha : s.activity = .seedLoop z i) :
    step s = .next (seedSmallStep z i { s with sched := rest }) := by
  rw [step_of_sched hs]
  rcases hm with rfl | rfl <;> exact engineMove_seedLoop (s := { s with sched := rest }) hr ha

/-- An engine's move inside a jump. -/
theorem step_jumpLoop {t : TableId} {acc : GenState} {j : Nat} (ha : s.activity = .jumpLoop t acc j) :
    step s = .next (jumpSmallStep t acc j { s with sched := rest }) := by
  rw [step_of_sched hs]
  rcases hm with rfl | rfl <;> exact engineMove_jumpLoop (s := { s with sched := rest }) hr ha

end

/-- The engine's move on an accepted command, performed whole. -/
theorem step_accepted {s : State} {rest : List Move} {cw : CmdWord} (hs : s.sched = .engine :: rest)
    (hr : s.rst = false) (ha : s.activity = .accepted cw) : step s = runCommand cw { s with sched := rest } := by
  rw [step_of_sched hs]
  exact engineMove_accepted (s := { s with sched := rest }) hr ha

/-- The engine's move on an accepted command, begun in small steps. -/
theorem step_accepted_small {s : State} {rest : List Move} {cw : CmdWord} (hs : s.sched = .engineSmall :: rest)
    (hr : s.rst = false) (ha : s.activity = .accepted cw) : step s = beginCommand cw { s with sched := rest } := by
  rw [step_of_sched hs]
  exact engineMove_accepted (s := { s with sched := rest }) hr ha

/-- While a response waits, an engine at rest only waits. -/
theorem step_waiting {s : State} {m : Move} {rest : List Move} (hm : m = .engine ∨ m = .engineSmall)
    (hs : s.sched = m :: rest) (hr : s.rst = false) (ha : s.activity = .idle) (hp : s.rsp.isSome = true) :
    step s = .next { s with sched := rest } := by
  rw [step_idle hm hs hr ha]
  rcases acceptCommand_cases { s with sched := rest } with ⟨cw, -, h, -⟩ | ⟨-, h⟩
  · obtain ⟨-, -, hn⟩ := (cmdReady_iff _).1 h
    have hn : s.rsp = none := hn
    rw [hn] at hp
    cases hp
  · rw [h]

/-- The moves of a program are those of its first word and then the rest's. -/
@[simp] theorem programMoves_cons (cw : CmdWord) (program : List CmdWord) :
    programMoves (cw :: program) = .offer cw :: .engine :: .engine :: .take :: programMoves program := rfl

/-- An empty program has no moves. -/
@[simp] theorem programMoves_nil : programMoves [] = [] := rfl

/-- A run is over when the engine is at rest and no move is left (rule R88). -/
theorem runOver_iff (s : State) : s.runOver = true ↔ s.sched = [] ∧ s.atRest := by
  simp only [State.runOver, State.atRest, Bool.and_eq_true, List.isEmpty_iff, Option.isNone_iff_eq_none, cmdReady_iff]
  exact ⟨fun ⟨⟨a, b⟩, c, d, e⟩ => ⟨a, d, e, c, b⟩, fun ⟨a, d, e, c, b⟩ => ⟨⟨a, b⟩, c, d, e⟩⟩

/-- Performing a list of command words performs the first and goes on with the rest. -/
theorem performInOrder_cons {cw : CmdWord} {s t : State} (rest : List CmdWord) (h : runCommand cw s = .next t) :
    performInOrder (cw :: rest) s = performInOrder rest (takeResponse t) := by
  simp only [performInOrder, h]

/-- What a command does depends neither on the moves that are planned nor on what the engine was doing. -/
theorem runCommand_sched_activity (cw : CmdWord) (s t : State) (a : Activity) (moves : List Move)
    (h : runCommand cw { s with sched := moves, activity := a } = .next t) :
    runCommand cw s = .next { t with sched := s.sched } := by
  rcases runCommand_cases cw s with ⟨⟨e, he⟩, hr⟩ | ⟨i, hi, hr⟩
  · cases e
    rw [runCommand, he] at h
    cases h
    rw [hr]
    rfl
  · rw [runCommand, hi] at h
    simp only [exec_eq] at h
    rw [hr, exec_eq]
    cases hf : faultOf i s.seeded <;> rw [hf] at h <;> cases h <;> rfl

end Sys2Proof.Machine
end

