-- ==== Sys2Proof/Tests/Slice0.lean ====
section
/-! SUPPORT. The model's own tests. Every expected value is the spec's: the tables and examples of its section files and of
95_test_vectors.md. The theorems named `witness_…` show that the hypotheses of a statement of
`Sys2Proof/Certificates/Slice0/Obligations.lean` can be met, at the boundaries of their ranges. -/

namespace Sys2Proof.Tests

open Sys2Proof.Machine

/-- Whether an outcome is a next state with a property. -/
def answers (o : Host.Outcome State Fault Refusal) (p : State → Bool) : Bool :=
  match o with
  | .next s => p s
  | .fault _ => false
  | .refused _ => false

/-- Whether the response of a state has this response word. -/
def responds (w : RspWord) (s : State) : Bool := decide (s.rspWord = some w)

/-- An engine that no SEED has reached, with the words given. -/
def unseeded (g : GenState) : State := { State.reset with gen := g }

/-- An engine that was seeded and holds the words given. -/
def seeded (g : GenState) : State := { State.reset with gen := g, seeded := true }

/-- The words after `SEED 0` (40_seed.md rule R41, example). -/
def gen0 : GenState :=
  ⟨0xE220A8397B1DCDAF#64, 0x6E789E6AA1B965F4#64, 0x06C45D188009454F#64, 0xF88BB8A8724C81EC#64⟩

/-- The words one draw after `SEED 0` (41_next.md section 4). -/
def gen1 : GenState :=
  ⟨0x74D38EFBA8E829B7#64, 0x8A9C6B4B5AADED14#64, 0xD831B65330FC88E0#64, 0xBC8312DE64D85A7E#64⟩

/-- The words of a state whose next draw is `r`. -/
def drawing (r : Word) : State := seeded ⟨r, 1#64, 2#64, 0#64⟩

/-- The engine has accepted a word and the next moves are these. -/
def accepted (cw : CmdWord) (moves : List Move) (s : State) : State :=
  { s with activity := .accepted cw, sched := moves }

/-! ## WellFormed: for each check a term it refuses, and the bounds it accepts -/

theorem test_wf_nextint_bounds : (Instr.nextint (-2147483648) 2147483647).wf = true := by decide
theorem test_wf_refuses_nextint_low_a : (Instr.nextint (-2147483649) 0).wf = false := by decide
theorem test_wf_refuses_nextint_high_a : (Instr.nextint 2147483648 0).wf = false := by decide
theorem test_wf_refuses_nextint_low_b : (Instr.nextint 0 (-2147483649)).wf = false := by decide
theorem test_wf_refuses_nextint_high_b : (Instr.nextint 0 2147483648).wf = false := by decide
theorem test_wf_line_seed : (AsmLine.seed 0xFFFFFFFFFFFFFFFF).wf = true ∧ (AsmLine.seed (2 ^ 64)).wf = false := by decide
theorem test_wf_line_construct : (AsmLine.construct (2 ^ 64)).wf = false := by decide
theorem test_wf_line_nextint : (AsmLine.nextint 2147483648 0).wf = false ∧ (AsmLine.nextint 0 (-2147483649)).wf = false := by
  decide
theorem test_wf_line_word72 : (AsmLine.word72 (2 ^ 72 - 1)).wf = true ∧ (AsmLine.word72 (2 ^ 72)).wf = false := by decide

/-! ## Decoding: one word of 30_encoding.md section 7 for every constructor, written out bit by bit -/

/-- `SEED 42`: opcode `00000001`, then 42. -/
theorem test_decode_seed : decode (0b00000001#8 ++ 0x000000000000002A#64) = .ok (.seed 42#64) := by decide
theorem test_decode_next : decode (0b00000010#8 ++ 0xFFFFFFFFFFFFFFFF#64) = .ok .next := by decide
theorem test_decode_jump : decode (0b00000011#8 ++ 0x0000000000000000#64) = .ok .jump := by decide
theorem test_decode_ljump : decode (0b00000100#8 ++ 0x0000000000000000#64) = .ok .ljump := by decide
theorem test_decode_nextf32 : decode (0b00000101#8 ++ 0x0000000000000000#64) = .ok .nextf32 := by decide
theorem test_decode_nextf64 : decode (0b00000110#8 ++ 0x0000000000000000#64) = .ok .nextf64 := by decide
/-- `NEXTINT -5, 5`: `b` in the high half, `a` in the low half. -/
theorem test_decode_nextint : decode (0b00000111#8 ++ 0x00000005#32 ++ 0xFFFFFFFB#32) = .ok (.nextint (-5) 5) := by decide
theorem test_decode_illegal : decode 0x000000000000000000#72 = .error (.illegalOpcode 0x00#8) ∧
    decode 0x08123456789ABCDEF0#72 = .error (.illegalOpcode 0x08#8) ∧
    decode 0xFF0000000000000000#72 = .error (.illegalOpcode 0xFF#8) := by decide
theorem test_encode : encode (.nextint (-2147483648) 2147483647) = 0x077FFFFFFF80000000#72 ∧
    encode (.seed 0xFFFFFFFFFFFFFFFF#64) = 0x01FFFFFFFFFFFFFFFF#72 := by decide
theorem test_table_word : decodeTableWord 72 0x0700000005FFFFFFFB = some (.nextint (-5) 5) ∧
    decodeTableWord 72 0x080000000000000000 = none := by decide
theorem test_assemble : assemble (.construct 42) = some 0x01000000000000002A#72 ∧
    assemble (.nextint 0 10) = some 0x070000000A00000000#72 ∧ assemble (.word72 0x080000000000000000) =
    some 0x080000000000000000#72 := by decide
theorem test_listing : asmText (.nextint (-5) 5) = "NEXTINT -5, 5" ∧
    hexWord (encode (.nextint (-5) 5)) = "0x0700000005FFFFFFFB" := by decide +kernel

/-- Program P4 of 95_test_vectors.md, and lines that rule R38 does not give (the decimal `.word72` is the model's choice, log
entry 13). -/
theorem test_read_listing : assembleListing
    ["NEXT", ".word72 0x080000000000000000", "SEED 0", "NEXTINT 5, 5", "CONSTRUCT 0xFFFFFFFFFFFFFFFF"] =
    some [0x020000000000000000#72, 0x080000000000000000#72, 0x010000000000000000#72, 0x070000000500000005#72,
      0x01FFFFFFFFFFFFFFFF#72] ∧
    assembleListing ["NEXTINT -5, 5"] = some [0x0700000005FFFFFFFB#72] ∧
    assembleListing [".word72 0x0bcDEF"] = assembleListing [".word72 773615"] ∧
    assembleListing ["SEED 1A"] = none ∧ assembleListing ["NEXT 1"] = none ∧ assembleListing ["next"] = none ∧ assembleListing ["NEXTINT 2147483648, 0"] = none := by
  decide +kernel

/-! ## Arithmetic and the functions of the rules -/

/-- 95_test_vectors.md section 1. -/
theorem test_rotation : rotl64 0x0000000000080000#64 45 = 1#64 ∧ rotl64 0x0000000000040000#64 45 = 0x8000000000000000#64 ∧
    rotl64 0x96F326C2D3F5E418#64 45 = 0xBC8312DE64D85A7E#64 := by decide
/-- 95_test_vectors.md section 2. -/
theorem test_mix64 : mix64 1#64 = 0x5692161D100B05E5#64 ∧ mix64 0x8000000000000000#64 = 0x25C26EA579CEA98A#64 ∧
    mix64 0xFFFFFFFFFFFFFFFF#64 = 0xB4D055FCF2CBBD7B#64 := by decide
/-- 95_test_vectors.md section 3: the row that tells a lost shift bit from a kept rotation bit. -/
theorem test_advance : advance ⟨0#64, 0xFFFF800000000001#64, 0#64, 0#64⟩ =
    ⟨0xFFFF800000000001#64, 0xFFFF800000000001#64, 0x0000000000020000#64, 0x00003FFFF0000000#64⟩ := by decide
/-- 95_test_vectors.md section 7: the response words are 17 hexadecimal digits, the code first. -/
theorem test_response_word : (Response.word ⟨.unseeded, 0#64⟩) = 0x20000000000000000#68 ∧
    (Response.word ⟨.ok, 0xDAAC60E1ED6A4F9B#64⟩) = 0x0DAAC60E1ED6A4F9B#68 := by decide

/-! ## The instructions, one step each -/

/-- 40_seed.md rule R41 example, and 95_test_vectors.md section 2. -/
theorem test_seed_0 : answers (exec (.seed 0#64) State.reset)
    (fun s => decide (s.gen = gen0) && s.seeded && !s.err && responds 0#68 s) = true := by decide
/-- The value that makes `S[0]` zero: the accumulator wraps to 0. -/
theorem test_seed_wraps_to_a_zero_word : answers (exec (.seed 0x61C8864680B583EB#64) (seeded gen1))
    (fun s => decide (s.gen =
      ⟨0#64, 0xE220A8397B1DCDAF#64, 0x6E789E6AA1B965F4#64, 0x06C45D188009454F#64⟩)) = true := by decide
/-- 41_next.md rule R45 example: the carry of the sum is dropped. -/
theorem test_next : answers (exec .next (seeded gen0))
    (fun s => decide (s.gen = gen1) && responds 0x0DAAC60E1ED6A4F9B#68 s) = true := by decide
/-- 95_test_vectors.md section 3, the row of four distinct words. -/
theorem test_next_mixed : answers
    (exec .next (seeded ⟨0x0123456789ABCDEF#64, 0xFEDCBA9876543210#64, 0x0F1E2D3C4B5A6978#64, 0x8796A5B4C3D2E1F0#64⟩))
    (fun s => decide (s.gen =
      ⟨0x78695A4B3C2D1E0F#64, 0xF0E1D2C3B4A59687#64, 0x7B0D84F3A6D1A497#64, 0xDA7C0F2943E596B0#64⟩) &&
      responds 0x088B9EB1C4D7EAFDF#68 s) = true := by decide
/-- 42_jump.md rule R51 example. -/
theorem test_jump : answers (exec .jump (seeded gen0))
    (fun s => decide (s.gen =
      ⟨0xFEE4F58CD4A88D82#64, 0xEB57CB7870F7D5A3#64, 0x076F2D192BD2720F#64, 0xB0A71CB77110D77B#64⟩) &&
      responds 0#68 s) = true := by decide +kernel
/-- 42_jump.md rule R52 example. -/
theorem test_ljump : answers (exec .ljump (seeded gen0))
    (fun s => decide (s.gen =
      ⟨0xAF65DFEBC3F98B67#64, 0xBB26B6403A6DD452#64, 0xBF68673518D166BD#64, 0x4C9939968279FFA0#64⟩) &&
      responds 0#68 s) = true := by decide +kernel
/-- 43_convert.md rule R61 example. -/
theorem test_nextf64 : answers (exec .nextf64 (seeded gen0))
    (fun s => decide (s.gen = gen1) && responds 0x03FEB558C1C3DAD48#68 s) = true := by decide
/-- The smallest fraction that is not zero (rule R61 corner case 2), and the largest result (corner case 3). -/
theorem test_nextf64_ends : convertF64 0x0000000000000FFF#64 = 0#64 ∧ convertF64 0x1000#64 = 0x3CB0000000000000#64 ∧
    convertF64 0x3000#64 = 0x3CC8000000000000#64 ∧ convertF64 0xFFFFFFFFFFFFFFFF#64 = 0x3FEFFFFFFFFFFFFE#64 := by decide
/-- 43_convert.md rule R63 example: the low half of the draw is used. -/
theorem test_nextf32 : answers (exec .nextf32 (seeded gen0))
    (fun s => decide (s.gen = gen1) && responds 0x0000000003F6D6A4E#68 s) = true := by decide
/-- Rule R63 corner cases 1 to 3. -/
theorem test_nextf32_ends : convertF32 0xFFFFFFFF00000000#64 = 0#64 ∧ convertF32 0x200#64 = 0x34000000#64 ∧
    convertF32 0xFFFFFFFFFFFFFFFF#64 = 0x3F7FFFFE#64 := by decide
/-- 95_test_vectors.md section 6: a tie that goes to the even fraction, and a negative result. -/
theorem test_nextint : answers (exec (.nextint 0 7) (drawing 0x9249249249249000#64)) (responds 0x00000000000000004#68) =
    true ∧ answers (exec (.nextint (-5) 5) (drawing 0x7FFFFFFFFFFFFFFF#64)) (responds 0x000000000FFFFFFFF#68) = true := by
  decide
/-- The widest range at the largest draw, a product strictly nearer to the integer above it, and another tie. -/
theorem test_nextint_corners : convertInt (-2147483648) 2147483647 0xFFFFFFFFFFFFFFFF#64 = 0x7FFFFFFE#64 ∧
    convertInt 0 13 0xB13B13B13B13B000#64 = 9#64 ∧ convertInt 0 9 0xE38E38E38E38E000#64 = 8#64 ∧
    convertInt 0 7 0x9249249249248000#64 = 3#64 := by decide

/-! ## Faults (95_test_vectors.md section 7) -/

theorem test_fault_unseeded : answers (exec (.nextint 5 5) State.reset)
    (fun s => responds 0x20000000000000000#68 s && s.err && !s.seeded) = true := by decide
theorem test_fault_range : answers (exec (.nextint 2147483647 (-2147483648)) (seeded gen0))
    (fun s => responds 0x30000000000000000#68 s && s.err && decide (s.gen = gen0)) = true := by decide
theorem test_fault_illegal : answers (step (accepted 0x08123456789ABCDEF0#72 [] (seeded gen0)))
    (fun s => responds 0x10000000000000000#68 s && s.err && decide (s.gen = gen0)) = true := by decide
theorem test_fault_illegal_before_unseeded : answers (step (accepted 0xFF0000000000000000#72 [] State.reset))
    (responds 0x10000000000000000#68) = true := by decide

/-! ## The machine -/

/-- Program P4's first three commands, performed in order: two are refused, the third seeds. -/
theorem test_perform_in_order : answers
    (performInOrder [0x020000000000000000#72, 0x080000000000000000#72, 0x010000000000000000#72] State.reset)
    (fun s => decide (s.runResult =
      ⟨[0x20000000000000000#68, 0x10000000000000000#68, 0#68], some gen0, true, true⟩)) = true := by decide
/-- The record of a run begins at its reset: of NEXT, a reset and SEED 0 only the last is answered in it (rule R88). -/
theorem test_record_begins_at_reset : answers
    (runSteps 11 { State.reset with sched := commandMoves 0x020000000000000000#72 ++ runMoves [0x010000000000000000#72] })
    (fun s => s.runOver && decide (s.runResult = ⟨[0#68], some gen0, true, false⟩)) = true := by decide
/-- The placed word is the command the next step performs. -/
theorem test_fetch : answers (step (State.reset.withFetchWord 72 0x010000000000000000))
    (fun s => decide (s.gen = gen0) && s.seeded) = true := by decide
/-- A command waits on the port while a response waits to be taken (rule R82). -/
theorem test_busy_keeps_the_offer : answers
    (step { seeded gen0 with rsp := some ⟨.ok, 0#64⟩, cmd := some 0x020000000000000000#72 })
    (fun s => decide (s.cmd = some 0x020000000000000000#72) && decide (s.activity = .idle)) = true := by decide
/-- The first set bit of JUMP's table is bit 1: the accumulators take the state after one step (rule R55). -/
theorem test_jump_small : answers (step { seeded gen1 with activity := .jumpLoop .jump GenState.zero 1 })
    (fun s => decide (s.activity = .jumpLoop .jump gen1 2)) = true := by decide
/-- SEED's first iteration (rule R41 and 40_seed.md section 4). -/
theorem test_seed_small : answers (step { State.reset with activity := .seedLoop 0#64 0 })
    (fun s => decide (s.activity = .seedLoop 0x9E3779B97F4A7C15#64 1) &&
      decide (s.gen.s0 = 0xE220A8397B1DCDAF#64) && !s.seeded) = true := by decide
/-- A reset in the middle of a jump (rule R84). -/
theorem test_reset_in_a_jump : answers
    (step { seeded gen0 with activity := .jumpLoop .jump gen1 9, sched := [.assertRst] })
    (fun s => decide (s.activity = .idle) && s.rsp.isNone && !s.seeded && s.rst) = true := by decide

/-! ## Witnesses: the hypotheses of the statements are met, clause by clause, at the ends of their ranges -/

theorem witness_DecodeOfEncodeIsIdentity : (Instr.nextint (-2147483648) 2147483647).wf = true ∧
    (Instr.seed 0xFFFFFFFFFFFFFFFF#64).wf = true ∧ Instr.next.wf = true := by decide
theorem witness_EncodeOfDecodeIsTheWord : decode 0x02FFFFFFFFFFFFFFFF#72 = .ok .next ∧
    decode 0x07800000007FFFFFFF#72 = .ok (.nextint 2147483647 (-2147483648)) ∧
    decode 0x01FFFFFFFFFFFFFFFF#72 = .ok (.seed 0xFFFFFFFFFFFFFFFF#64) := by decide
theorem witness_SeedWritesTheExpandedWords : 0xFFFFFFFFFFFFFFFF#64 + 0x9E3779B97F4A7C15#64 = 0x9E3779B97F4A7C14#64 ∧
    0x9E3779B97F4A7C14#64 + 0x9E3779B97F4A7C15#64 = 0x3C6EF372FE94F829#64 := by decide
theorem witness_PolyApplyFollowsItsLoop (t : Config.Table) (x : GenState) : polySum t x 0 = GenState.zero ∧
    advance^[0] x = x ∧
    (∀ j, polySum t x (j + 1) = if tableBit t j then (polySum t x j).xor (advance^[j] x) else polySum t x j) ∧
    ∀ j, advance^[j + 1] x = advance (advance^[j] x) :=
  ⟨rfl, rfl, fun _ => rfl, fun j => Function.iterate_succ_apply' advance j x⟩
theorem witness_IgnoredOperandsDecodeAlike : (2 ≤ (2#8).toNat ∧ (2#8).toNat ≤ 6) ∧ 2 ≤ (6#8).toNat ∧ (6#8).toNat ≤ 6 := by
  decide
theorem witness_DecoderRefusesExactlyTheIllegalOpcodes : (∃ e, decode 0x000000000000000001#72 = .error e) ∧
    (∃ e, decode 0x080000000000000000#72 = .error e) ∧ (∃ e, decode 0xFFFFFFFFFFFFFFFFFF#72 = .error e) ∧
    decode 0x010000000000000000#72 = .ok (.seed 0#64) ∧ decode 0x070000000000000000#72 = .ok (.nextint 0 0) :=
  ⟨⟨_, rfl⟩, ⟨_, rfl⟩, ⟨_, rfl⟩, by decide, by decide⟩
theorem witness_ConstructAssemblesToSeed : assemble (.construct (2 ^ 64 - 1)) = some 0x01FFFFFFFFFFFFFFFF#72 ∧
    assemble (.seed 0) = some 0x010000000000000000#72 ∧ assemble (.construct (2 ^ 64)) = none := by decide
/-- The ends of the range of a shift, and a sum and a product that wrap. -/
theorem witness_WordArithmeticIsModular : (0 < 1 ∧ 1 < 64) ∧ (0 < 63 ∧ 63 < 64) ∧
    shl64 3#64 63 = 0x8000000000000000#64 ∧ shr64 3#64 1 = 1#64 ∧
    add64 0xFFFFFFFFFFFFFFFF#64 2#64 = 1#64 ∧ mul64 0xFFFFFFFFFFFFFFFF#64 0xFFFFFFFFFFFFFFFF#64 = 1#64 := by decide
/-- The intermediate words of 40_seed.md section 1's example. -/
theorem witness_MixingFollowsItsStepsAndIsBijective :
    0x9E3779BB07979AF0#64 = 0x9E3779B97F4A7C15#64 ^^^ (0x9E3779B97F4A7C15#64 >>> 30) ∧
    0x6F68261B57E7A770#64 = 0x9E3779BB07979AF0#64 * 0xBF58476D1CE4E5B9#64 ∧
    0x6F682616BAE3641A#64 = 0x6F68261B57E7A770#64 ^^^ (0x6F68261B57E7A770#64 >>> 27) ∧
    0xE220A838BF5C9DDE#64 = 0x6F682616BAE3641A#64 * 0x94D049BB133111EB#64 := by decide
theorem witness_SeedLeavesAtMostOneWordZero : (3 : Fin 4) ≠ 0 ∧ answers (exec (.seed 0x8722191A02D60FAC#64) State.reset)
    (fun t => decide (t.gen.word 3 = 0#64) && decide (t.gen.word 0 ≠ 0#64)) = true := by decide
/-- The intermediate words of 41_next.md section 4. -/
theorem witness_NextAnswersTheDrawAndAdvances : (seeded gen0).seeded = true ∧ State.reset.seeded = false ∧
    0xDAAC60E1ED6A4F9B#64 = gen0.s0 + gen0.s3 ∧ 0x3CD54372CBE80000#64 = gen0.s1 <<< 17 ∧
    0xE4E4F521FB1488E0#64 = gen0.s2 ^^^ gen0.s0 ∧ 0x96F326C2D3F5E418#64 = gen0.s3 ^^^ gen0.s1 ∧
    0x8A9C6B4B5AADED14#64 = gen0.s1 ^^^ 0xE4E4F521FB1488E0#64 ∧ 0x74D38EFBA8E829B7#64 = gen0.s0 ^^^ 0x96F326C2D3F5E418#64 ∧
    0xD831B65330FC88E0#64 = 0xE4E4F521FB1488E0#64 ^^^ 0x3CD54372CBE80000#64 ∧
    0xBC8312DE64D85A7E#64 = (0x96F326C2D3F5E418#64 <<< 45) ||| (0x96F326C2D3F5E418#64 >>> 19) := by decide
theorem witness_PolyApplyClosedForm : polyApply (singleBitTable 255) gen0 ≠ gen0 ∧
    polyApply (singleBitTable 0) gen0 = gen0 ∧ polyApply (singleBitTable 1) gen0 = gen1 := by decide +kernel
theorem witness_JumpsCompleteWithTheirTables : (seeded gen0).seeded = true ∧ State.reset.seeded = false := by decide
theorem witness_JumpsKeepNonZeroStates : (⟨0#64, 0#64, 0#64, 1#64⟩ : GenState) ≠ GenState.zero := by decide
/-- Draws whose fraction is 0 and whose fraction is the largest. -/
theorem witness_NextF64AnswersTheFraction : (drawing 0xFFF#64).seeded = true ∧ (drawing 0xFFFFFFFFFFFFFFFF#64).seeded = true ∧
    drawOf (drawing 0xFFF#64).gen >>> 12 = 0#64 ∧ drawOf (drawing 0xFFFFFFFFFFFFFFFF#64).gen >>> 12 = 0xFFFFFFFFFFFFF#64 := by
  decide
/-- A draw whose fraction is 0 though its other bits are set, and one whose fraction is the largest. -/
theorem witness_NextF32AnswersTheFraction : (drawing 0xFFFFFFFF000001FF#64).seeded = true ∧
    (drawOf (drawing 0xFFFFFFFF000001FF#64).gen).extractLsb' 9 23 = 0#23 ∧
    (drawing 0xFFFFFFFFFFFFFFFF#64).seeded = true ∧
    (drawOf (drawing 0xFFFFFFFFFFFFFFFF#64).gen).extractLsb' 9 23 = 0x7FFFFF#23 := by decide
theorem witness_NextIntAnswersInRange : (seeded gen0).seeded = true ∧ inI32 (-2147483648) ∧ inI32 2147483647 ∧
    (-2147483648 : Int) < 2147483647 ∧ (2147483646 : Int) < 2147483647 ∧ (5 : Int) ≤ 5 ∧ State.reset.seeded = false := by decide
theorem witness_UnseededCommandsFault : (∀ v, Instr.nextint 5 5 ≠ .seed v) ∧ (∀ v, Instr.jump ≠ .seed v) ∧
    State.reset.seeded = false := ⟨fun _ h => (by cases h), fun _ h => (by cases h), rfl⟩
theorem witness_BadRangeFaults : (5 : Int) ≤ 5 ∧ (-2147483648 : Int) ≤ 2147483647 := by decide
/-- The narrowest and the widest range. -/
theorem witness_ConvertersStayInRange : inI32 (-2147483648) ∧ inI32 2147483647 ∧ (-2147483648 : Int) < 2147483647 ∧
    convertInt 7 8 0xFFFFFFFFFFFFFFFF#64 = 7#64 := by decide
/-- Both kinds of move, and the opcodes at the ends of the two illegal ranges. -/
theorem witness_IllegalWordsFault : ∀ s ∈ [accepted 0x000000000000000000#72 [.engine] State.reset,
    accepted 0x080000000000000000#72 [.engineSmall] (seeded gen0), accepted 0xFF0000000000000000#72 [] (seeded gen0)],
    s.rst = false ∧ (s.nextMove = .engine ∨ s.nextMove = .engineSmall) ∧ ∃ cw, s.activity = .accepted cw ∧
      ((opcodeField cw).toNat = 0 ∨ 8 ≤ (opcodeField cw).toNat) := by
  simp only [List.forall_mem_cons, List.not_mem_nil, false_imp_iff, implies_true, and_true]
  exact ⟨⟨rfl, .inl rfl, _, rfl, .inl rfl⟩, ⟨rfl, .inr rfl, _, rfl, .inr (by decide)⟩,
    ⟨rfl, .inl rfl, _, rfl, .inr (by decide)⟩⟩
/-- The code 1 on an unseeded engine, 2 before 3, 3, and 0. -/
theorem witness_FaultPriority :
    answers (runCommand 0xFF0000000000000000#72 State.reset) (responds 0x10000000000000000#68) = true ∧
    answers (runCommand 0x070000000500000005#72 State.reset) (responds 0x20000000000000000#68) = true ∧
    answers (runCommand 0x070000000500000005#72 (seeded gen0)) (responds 0x30000000000000000#68) = true ∧
    answers (runCommand 0x020000000000000000#72 (seeded gen0)) (responds 0x0DAAC60E1ED6A4F9B#68) = true := by decide
theorem witness_FaultsLeaveNoTraceButErr :
    answers (runCommand 0x030000000000000000#72 State.reset) (fun t => t.err && responds 0x20000000000000000#68 t) = true ∧
    answers (runCommand 0x010000000000000000#72 State.reset) (fun t => !t.err && responds 0#68 t) = true := by decide
/-- SEEDED is set by the end of SEED, whole and small, and cleared by asserting reset. -/
theorem witness_SeededChangesOnlyBySeedAndReset :
    answers (step (accepted 0x010000000000000000#72 [] State.reset)) (·.seeded) = true ∧
    answers (step { State.reset with activity := .seedLoop 5#64 4 }) (·.seeded) = true ∧
    answers (step { seeded gen0 with sched := [.assertRst] }) (fun t => !t.seeded) = true := by decide
theorem witness_ErrIsStickyAndInert :
    answers (step { State.reset with err := true, sched := [.assertRst] }) (fun t => !t.err) = true ∧
    answers (step (accepted 0x020000000000000000#72 [] State.reset)) (·.err) = true := by decide
/-- Words change, in a whole and in a small step; the host's moves in the middle of a jump. -/
theorem witness_OnlyOperationsWriteTheWords :
    answers (step (accepted 0x020000000000000000#72 [.engineSmall] (seeded gen0))) (fun t => decide (t.gen ≠ gen0)) = true ∧
    answers (step { seeded gen0 with activity := .jumpLoop .jump GenState.zero 0 }) (fun t => decide (t.gen = gen1)) = true ∧
    (∀ m ∈ [Move.withdraw, .take, .releaseRst, .offer 0#72],
      answers (step { seeded gen0 with activity := .jumpLoop .jump gen1 9, rsp := some ⟨.ok, 0#64⟩, sched := [m] })
        (fun t => decide (t.activity = .jumpLoop .jump gen1 9)) = true) := by
  decide
theorem witness_ResetAbandonsTheOperation : ∀ a : Activity, { seeded gen0 with activity := a, sched := [.assertRst] }.nextMove =
    .assertRst := fun _ => rfl
theorem witness_NothingHappensInReset : { State.reset with rst := true }.nextMove = .engine ∧
    { State.reset with rst := true, sched := [.engineSmall] }.nextMove = .engineSmall := ⟨rfl, rfl⟩
/-- A whole move, and a small move on an instruction that has no small steps. -/
theorem witness_StepPerformsTheAcceptedInstruction : (accepted 0x040000000000000000#72 [.engine] (seeded gen0)).rst = false ∧
    (accepted 0x040000000000000000#72 [.engine] (seeded gen0)).nextMove = .engine ∧
    decode 0x040000000000000000#72 = .ok .ljump ∧
    (accepted 0x060000000000000000#72 [.engineSmall] (seeded gen0)).nextMove = .engineSmall ∧
    decode 0x060000000000000000#72 = .ok .nextf64 ∧ (∀ v, Instr.nextf64 ≠ .seed v) ∧ Instr.nextf64 ≠ .jump ∧
    Instr.nextf64 ≠ .ljump :=
  ⟨by decide, by decide, by decide, by decide, by decide, fun _ h => (by cases h), by decide, by decide⟩
theorem witness_PlacedWordIsPerformedNext : decodeTableWord 72 0x07FFFFFFFFFFFFFFFF = some (.nextint (-1) (-1)) := by decide
/-- An acceptance; the same hypotheses as those of the second clause; an offer that waits. -/
theorem witness_CommandsAreAcceptedOnlyWhenReady :
    answers (step { State.reset with cmd := some 7#72 }) (fun t => decide (t.activity = .accepted 7#72)) = true ∧
    State.reset.activity = .idle ∧ State.reset.rsp = none ∧ State.reset.rst = false ∧
    { State.reset with cmd := some 7#72, sched := [.engineSmall] }.nextMove = .engineSmall ∧
    { State.reset with cmd := some 7#72, rsp := some ⟨.ok, 0#64⟩ }.cmdReady = false := by decide

/-- A seeded engine whose response waits is in order. -/
theorem protocolOk_waiting (g : GenState) (r : Response) (h : r.code = .ok) (moves : List Move) :
    State.protocolOk { seeded g with rsp := some r, sched := moves } := by
  refine ⟨fun n => absurd rfl n, fun n => (by cases n), trivial, fun r' e c => ?_⟩
  cases e
  exact absurd h c

theorem witness_ResponsesAreNeitherLostNorRepeated : ∀ m : Move,
    State.protocolOk { seeded gen0 with rsp := some ⟨.ok, 3#64⟩, sched := [m] } ∧
    { seeded gen0 with rsp := some ⟨.ok, 3#64⟩, sched := [m] }.nextMove = m :=
  fun _ => ⟨protocolOk_waiting _ _ rfl _, rfl⟩
theorem witness_CommandSequencesAreAnsweredInOrder : State.atRest { State.reset with
    sched := programMoves [0x010000000000000000#72, 0x020000000000000000#72, 0#72] ++ [.offer 0#72] } :=
  ⟨rfl, rfl, rfl, rfl⟩
/-- The run of an empty program, and of one begun on a busy engine with a stale offer. -/
theorem witness_ProgramsLeaveTheirResult : { State.reset with sched := runMoves [] }.sched = runMoves [] ∧
    answers (runSteps 7 { seeded gen1 with
      activity := .jumpLoop .jump gen1 9, cmd := some 5#72, err := true, taken := [⟨.range, 0#64⟩]
      sched := runMoves [0x080000000000000000#72] })
      (fun s => s.runOver && decide (s.runResult = ⟨[0x10000000000000000#68], none, false, true⟩)) = true := by decide
/-- A list of both of the engine's moves. -/
def mixed (n : Nat) : List Move := .engineSmall :: List.replicate n .engine

theorem mem_mixed {n : Nat} {m : Move} (h : m ∈ mixed n) : m = .engine ∨ m = .engineSmall := by
  rcases List.mem_cons.1 h with h | h
  · exact .inr h
  · exact .inl (List.eq_of_mem_replicate h)

theorem length_mixed (n : Nat) : (mixed n).length = n + 1 := by simp [mixed]

theorem witness_EveryCommandIsAnsweredInBoundedSteps :
    State.protocolOk { seeded gen0 with activity := .jumpLoop .jump GenState.zero 0, sched := mixed 257 } ∧
    (∀ m ∈ mixed 257, m = .engine ∨ m = .engineSmall) ∧ (mixed 257).length = 258 :=
  ⟨⟨fun _ => rfl, fun n => (by cases n), ⟨by omega, rfl⟩, fun r e => (by cases e)⟩, fun _ => mem_mixed, length_mixed _⟩
theorem witness_SeedInSmallSteps : decode 0x01000000000000002A#72 = .ok (.seed 42#64) ∧
    (accepted 0x01000000000000002A#72 (.engineSmall :: (mixed 4 ++ [])) State.reset).rst = false ∧
    (∀ m ∈ mixed 4, m = .engine ∨ m = .engineSmall) ∧ (mixed 4).length = 5 :=
  ⟨by decide, rfl, fun _ => mem_mixed, length_mixed _⟩
theorem witness_JumpsInSmallSteps : decode 0x030000000000000000#72 = .ok .jump ∧ decode 0x040000000000000000#72 = .ok .ljump ∧
    (accepted 0x030000000000000000#72 (.engineSmall :: (mixed 256 ++ [])) (seeded gen0)).rst = false ∧
    (accepted 0x030000000000000000#72 (.engineSmall :: (mixed 256 ++ [])) (seeded gen0)).activity =
      .accepted 0x030000000000000000#72 ∧
    (∀ m ∈ mixed 256, m = .engine ∨ m = .engineSmall) ∧ (mixed 256).length = 257 :=
  ⟨by decide, by decide, rfl, rfl, fun _ => mem_mixed, length_mixed _⟩
theorem witness_ProtocolIsKept : State.protocolOk { seeded gen0 with rsp := some ⟨.ok, 3#64⟩, sched := [.take] } ∧
    answers (step { seeded gen0 with rsp := some ⟨.ok, 3#64⟩, sched := [.take] }) (·.rsp.isNone) = true :=
  ⟨protocolOk_waiting _ _ rfl _, by decide⟩
/-- A fault is performed on an engine whose record is clear: its response sets ERR. -/
theorem witness_RecordIsKept : State.protocolOk (accepted 0x020000000000000000#72 [] State.reset) ∧
    State.recordOk (accepted 0x020000000000000000#72 [] State.reset) ∧
    answers (step (accepted 0x020000000000000000#72 [] State.reset)) (fun t => t.err && t.rsp.isSome) = true :=
  ⟨⟨fun _ => rfl, fun n => (by cases n), trivial, fun r e => (by cases e)⟩,
    ⟨fun e => (by cases e), fun ⟨_, h, _⟩ => (by rcases h with h | h <;> cases h)⟩, by decide⟩
/-- A jump at its iteration `j`, begun on words that are not all zero. -/
theorem nonDegenerate_jumpLoop (t : TableId) (x : GenState) (j : Nat) (hj : j ≤ 256) (hx : x ≠ GenState.zero) :
    State.nonDegenerate { seeded (advance^[j] x) with activity := .jumpLoop t (polySum (tableOf t) x j) j } :=
  ⟨hj, x, hx, rfl, rfl⟩

/-- The four cases of the invariant, the loops at their beginning and their end. -/
theorem witness_NonDegeneracyIsKept : State.nonDegenerate (seeded gen0) ∧
    State.nonDegenerate (accepted 0x030000000000000000#72 [] (seeded gen0)) ∧
    State.nonDegenerate { State.reset with activity := .seedLoop 42#64 0 } ∧
    (∀ j, j = 0 ∨ j = 256 → State.nonDegenerate
      { seeded (advance^[j] gen0) with activity := .jumpLoop .longJump (polySum (tableOf .longJump) gen0 j) j }) :=
  ⟨fun _ => by decide, fun _ => by decide, ⟨42#64, by decide, fun k h => by omega⟩,
    fun j h => nonDegenerate_jumpLoop _ _ j (by omega) (by decide)⟩
theorem witness_NoMovesReachTheZeroState :
    answers (runSteps 3 { State.reset with sched := commandMoves 0x010000000000000000#72 })
      (fun s => s.seeded && decide (s.activity = .idle)) = true ∧
    answers (runSteps 6 { State.reset with sched := programMoves [0x010000000000000000#72, 0x020000000000000000#72] })
      (fun s => s.seeded && decide (s.activity = .accepted 0x020000000000000000#72)) = true := by decide
theorem witness_UnseededWordsHaveNoInfluence : (unseeded gen0).sameToHost (unseeded gen1) ∧ unseeded gen0 ≠ unseeded gen1 ∧
    State.sameToHost (accepted 0x020000000000000000#72 [] (unseeded gen0)) (accepted 0x020000000000000000#72 [] (unseeded gen1)) ∧
    answers (step (accepted 0x020000000000000000#72 [] (unseeded gen0))) (·.err) = true :=
  ⟨⟨rfl, rfl, rfl, rfl, rfl, rfl, rfl, rfl, fun n => by cases n⟩, by decide,
    ⟨rfl, rfl, rfl, rfl, rfl, rfl, rfl, rfl, fun n => by cases n⟩, by decide⟩
theorem witness_SameMovesGiveTheSameResponses :
    State.sameToHost { unseeded gen0 with sched := commandMoves 0x010000000000000000#72 }
      { unseeded gen1 with sched := commandMoves 0x010000000000000000#72 } ∧
    answers (runSteps 4 { unseeded gen0 with sched := commandMoves 0x010000000000000000#72 })
      (fun s => decide (s.taken = [⟨.ok, 0#64⟩])) = true :=
  ⟨⟨rfl, rfl, rfl, rfl, rfl, rfl, rfl, rfl, fun n => by cases n⟩, by decide⟩
theorem witness_EnginesShareNothing : ∃ t, step (seeded gen0) = .next t ∧
    stepEngine 1 [State.reset, seeded gen0] = .next [State.reset, t] := ⟨_, rfl, rfl⟩

end Sys2Proof.Tests
end

section
/-! PROOFS. The words and their operations (00_scope.md section 5, rules R4 to R6): the value of each operation as a
number, and where a rotation puts each bit. -/

namespace Sys2Proof.Machine

@[simp] theorem toNat_add64 (x y : Word) : (add64 x y).toNat = (x.toNat + y.toNat) % 2 ^ 64 :=
  BitVec.toNat_add x y

@[simp] theorem toNat_mul64 (x y : Word) : (mul64 x y).toNat = (x.toNat * y.toNat) % 2 ^ 64 :=
  BitVec.toNat_mul x y

@[simp] theorem toNat_shl64 (x : Word) (k : Nat) : (shl64 x k).toNat = (x.toNat * 2 ^ k) % 2 ^ 64 := by
  rw [shl64, BitVec.toNat_shiftLeft, Nat.shiftLeft_eq]

@[simp] theorem toNat_shr64 (x : Word) (k : Nat) : (shr64 x k).toNat = x.toNat / 2 ^ k := by
  rw [shr64, BitVec.toNat_ushiftRight, Nat.shiftRight_eq_div_pow]

@[simp] theorem toNat_xorShr (x : Word) (k : Nat) : (xorShr x k).toNat = x.toNat ^^^ (x.toNat / 2 ^ k) := by
  rw [xorShr, BitVec.toNat_xor, toNat_shr64]

theorem rotl64_eq_rotateLeft (x : Word) {k : Nat} (hk : k < 64) : rotl64 x k = x.rotateLeft k := by
  rw [BitVec.rotateLeft_def, Nat.mod_eq_of_lt hk, rotl64, shl64, shr64]

/-- Rule R6 for every amount: a bit that stays below bit 64 moves up by `k`, the others come back in at bit 0. -/
theorem getLsbD_rotl64 (x : Word) {k i : Nat} (hk : k < 64) (hi : i < 64) :
    (rotl64 x k).getLsbD ((i + k) % 64) = x.getLsbD i := by
  rw [rotl64_eq_rotateLeft x hk, BitVec.getLsbD_rotateLeft_of_le hk]
  by_cases stays : i + k < 64
  · simp [Nat.mod_eq_of_lt stays, stays]
  · have position : (i + k) % 64 = i + k - 64 := by omega
    have source : 64 - k + (i + k - 64) = i := by omega
    have low : i + k - 64 < k := by omega
    simp [position, source, low]

/-- Two rotations that make a whole turn move every bit back to its place. -/
theorem rotl64_rotl64_of_add_eq (x : Word) {j k : Nat} (hj : j < 64) (hk : k < 64) (turn : j + k = 64) :
    rotl64 (rotl64 x j) k = x := by
  apply BitVec.eq_of_getLsbD_eq
  intro i hi
  have place : ((i + j) % 64 + k) % 64 = i := by omega
  calc (rotl64 (rotl64 x j) k).getLsbD i
      = (rotl64 (rotl64 x j) k).getLsbD (((i + j) % 64 + k) % 64) := by rw [place]
    _ = (rotl64 x j).getLsbD ((i + j) % 64) := getLsbD_rotl64 _ hk (Nat.mod_lt _ (by decide))
    _ = x.getLsbD i := getLsbD_rotl64 x hj hi

/-- Settles O9: where a rotation puts each bit, at amount 45, and the whole turn 45 + 19. -/
theorem rotationMovesEveryBit : Obligations.RotationMovesEveryBit :=
  ⟨fun _ => rfl, fun x _ hi => getLsbD_rotl64 x (by decide) hi,
    fun x => rotl64_rotl64_of_add_eq x (by decide) (by decide) rfl, by decide⟩

/-- Settles O8: the operations' values as numbers; they hold for every amount, so the bounds on `k` go unused. -/
theorem wordArithmeticIsModular : Obligations.WordArithmeticIsModular :=
  fun x y k _ _ => ⟨toNat_add64 x y, toNat_mul64 x y, toNat_shl64 x k, toNat_shr64 x k, toNat_xorShr x k⟩

end Sys2Proof.Machine
end

section
/-! PROOFS. STATUS.ERR (10_state.md section 3, rule R14): what every command, every move of the engine and every step
does to it, and that no instruction reads it. -/

namespace Sys2Proof.Machine

/-- An iteration of SEED, and its end, leave ERR alone: SEED never faults (rule R41). -/
@[simp] theorem seedSmallStep_err (z : Word) (i : Nat) (s : State) : (seedSmallStep z i s).err = s.err := by
  unfold seedSmallStep
  split <;> rfl

/-- An iteration of a jump, and its end, leave ERR alone: the check of rule R74 lies before the loop. -/
@[simp] theorem jumpSmallStep_err (t : TableId) (acc : GenState) (j : Nat) (s : State) :
    (jumpSmallStep t acc j s).err = s.err := by
  unfold jumpSmallStep
  split <;> rfl

/-- The state carries the mark of a fault: ERR is set, and the response that waits has a fault code. -/
def State.showsFault (t : State) : Prop := t.err = true ∧ ∃ r, t.rsp = some r ∧ r.code ≠ .ok

/-- All that a command can do to ERR. -/
theorem runCommand_err {cw : CmdWord} {s t : State} (h : runCommand cw s = .next t) :
    t.err = s.err ∨ t.showsFault := by
  obtain ⟨t', r, hrun, hrsp, -, -, kept, set, -⟩ := runCommand_next cw s
  cases hrun.symm.trans h
  by_cases hc : r.code = .ok
  · exact .inl (kept hc)
  · exact .inr ⟨(set hc).1, r, hrsp, hc⟩

/-- Rule R14: every fault sets ERR. -/
theorem runCommand_err_of_fault {cw : CmdWord} {s t : State} {r : Response} (h : runCommand cw s = .next t)
    (hr : t.rsp = some r) (hc : r.code ≠ .ok) : t.err = true := by
  obtain ⟨t', r', hrun, hrsp, -, -, -, set, -⟩ := runCommand_next cw s
  cases hrun.symm.trans h
  cases hrsp.symm.trans hr
  exact (set hc).1

/-- All that a move of the engine can do to ERR: only a command performed whole can change it, by a fault. -/
theorem EngineStep.err {s t : State} (h : EngineStep s t) : t.err = s.err ∨ t.showsFault := by
  cases h with
  | run cw _ _ _ hrun => exact runCommand_err hrun
  | inReset => exact .inl rfl
  | notAccepted => exact .inl rfl
  | accept => exact .inl rfl
  | beginSeed => exact .inl rfl
  | beginJump => exact .inl rfl
  | seedIteration z i => exact .inl (seedSmallStep_err z i s)
  | jumpIteration tb acc j => exact .inl (jumpSmallStep_err tb acc j s)

/-- All that a step can do to ERR: a reset clears it, a fault sets it, and anything else leaves it. -/
theorem step_err {s t : State} (h : step s = .next t) :
    (s.nextMove = .assertRst ∧ t.err = false) ∨ t.err = s.err ∨ t.showsFault := by
  cases step_cases h with
  | engine _ _ move => exact .inr move.err
  | assertRst hm => exact .inl ⟨hm, rfl⟩
  | releaseRst => exact .inr (.inl rfl)
  | offer => exact .inr (.inl rfl)
  | withdraw => exact .inr (.inl rfl)
  | take => exact .inr (.inl rfl)
  | takeNothing => exact .inr (.inl rfl)

/-- No instruction reads ERR: from two states that differ in it alone, the answers differ in it at most. -/
theorem exec_setErr (i : Instr) (s : State) (e : Bool) :
    ∃ t u, exec i s = .next t ∧ exec i { s with err := e } = .next u ∧ { u with err := t.err } = t := by
  refine ⟨_, _, exec_eq i s, exec_eq i _, ?_⟩
  cases faultOf i s.seeded with
  | none => rfl
  | some c => rfl

/-- Settles O36: `step_err` gives what clears ERR and what sets it, `exec_setErr` that no command depends on it. -/
theorem errIsStickyAndInert : Obligations.ErrIsStickyAndInert := by
  refine ⟨fun s t h => ?_, assertReset_err, fun _ _ _ _ => runCommand_err_of_fault, exec_setErr⟩
  rcases step_err h with ⟨hm, ht⟩ | kept | ⟨ht, response⟩
  · exact ⟨fun _ _ => hm, by simp [ht]⟩
  · exact ⟨by simp +contextual [kept], by simp +contextual [kept]⟩
  · exact ⟨by simp [ht], fun _ _ => response⟩

end Sys2Proof.Machine
end

section
/-! PROOFS. Command words (30_encoding.md): what each opcode decodes to, whatever its operand (rules R31, R32, R34), and
the words of the listing's lines (rules R38, R39). -/

namespace Sys2Proof.Machine

@[simp] theorem opcodeField_append (op : BitVec 8) (v : Word) : opcodeField (op ++ v) = op :=
  (Laws.encode_fields op v).1

@[simp] theorem operandField_append (op : BitVec 8) (v : Word) : operandField (op ++ v) = v :=
  (Laws.encode_fields op v).2

@[simp] theorem decode_seed_append (v : Word) : decode (0x01#8 ++ v) = .ok (.seed v) := by simp [decode]

@[simp] theorem decode_next_append (v : Word) : decode (0x02#8 ++ v) = .ok .next := by simp [decode]

@[simp] theorem decode_jump_append (v : Word) : decode (0x03#8 ++ v) = .ok .jump := by simp [decode]

@[simp] theorem decode_ljump_append (v : Word) : decode (0x04#8 ++ v) = .ok .ljump := by simp [decode]

@[simp] theorem decode_nextf32_append (v : Word) : decode (0x05#8 ++ v) = .ok .nextf32 := by simp [decode]

@[simp] theorem decode_nextf64_append (v : Word) : decode (0x06#8 ++ v) = .ok .nextf64 := by simp [decode]

/-- Settles O3: the five opcodes one by one, each with the operation it decodes to. -/
theorem ignoredOperandsDecodeAlike : Obligations.IgnoredOperandsDecodeAlike := by
  intro op low high
  have opcodes : op = 0x02#8 ∨ op = 0x03#8 ∨ op = 0x04#8 ∨ op = 0x05#8 ∨ op = 0x06#8 := by bv_omega
  rcases opcodes with rfl | rfl | rfl | rfl | rfl
  · exact ⟨.next, decode_next_append, rfl⟩
  · exact ⟨.jump, decode_jump_append, rfl⟩
  · exact ⟨.ljump, decode_ljump_append, rfl⟩
  · exact ⟨.nextf32, decode_nextf32_append, rfl⟩
  · exact ⟨.nextf64, decode_nextf64_append, rfl⟩

/-- Rule R39: the two spellings have one assembly, in range and out of it. -/
theorem assemble_construct (n : Nat) : assemble (.construct n) = assemble (.seed n) := rfl

theorem assemble_seed_of_lt {n : Nat} (h : n < 2 ^ 64) :
    assemble (.seed n) = some (0x01#8 ++ BitVec.ofNat 64 n) :=
  if_pos (decide_eq_true h)

theorem assemble_seed_of_le {n : Nat} (h : 2 ^ 64 ≤ n) : assemble (.seed n) = none :=
  if_neg (by simpa [AsmLine.wf] using h)

/-- Settles O6: both spellings are SEED's word (`assemble_construct`), and a number below `2^64` is its own operand. -/
theorem constructAssemblesToSeed : Obligations.ConstructAssemblesToSeed := by
  refine fun n => ⟨fun h => ?_, fun h => ?_⟩
  · have word := assemble_seed_of_lt h
    have operand := (BitVec.toNat_ofNat n 64).trans (Nat.mod_eq_of_lt h)
    exact ⟨_, (assemble_construct n).trans word, word, _, decode_seed_append _, operand⟩
  · have noWord := assemble_seed_of_le h
    exact ⟨(assemble_construct n).trans noWord, noWord⟩

end Sys2Proof.Machine
end

section
/-! PROOFS. NEXT (41_next.md): the whole state an instruction leaves when it answers a draw or faults, and NEXT's answer
(rules R44, R45, R71, R74). -/

namespace Sys2Proof.Machine

/-- Rules R44 and R45: the words advance, the draw is of the words before, and all else stays. -/
theorem respondDraw_eq (convert : Word → Word) (s : State) : respondDraw convert s = { s with
    gen := advance s.gen
    rsp := some ⟨.ok, convert (drawOf s.gen)⟩
    activity := .idle } := rfl

/-- Rule R71: a fault sets ERR and answers its code with value 0, and all else stays. -/
theorem raiseFault_eq (code : Code) (s : State) : raiseFault code s = { s with
    err := true
    rsp := some ⟨code, 0#64⟩
    activity := .idle } := rfl

theorem exec_next_of_seeded {s : State} (h : s.seeded = true) : exec .next s = .next (respondDraw id s) :=
  congrArg _ (whenSeeded_of_seeded h _)

theorem exec_next_of_unseeded {s : State} (h : s.seeded = false) :
    exec .next s = .next (raiseFault .unseeded s) :=
  congrArg _ (whenSeeded_of_unseeded h _)

/-- Rule R44's words after the eight steps, from the intermediate words `x2` and `x3` of steps 3 and 4. -/
theorem advance_of_steps {g : GenState} {x2 x3 : Word} (step3 : x2 = g.s2 ^^^ g.s0) (step4 : x3 = g.s3 ^^^ g.s1) :
    advance g = ⟨g.s0 ^^^ x3, g.s1 ^^^ x2, x2 ^^^ (g.s1 <<< 17), (x3 <<< 45) ||| (x3 >>> 19)⟩ := by
  subst step3 step4
  rfl

/-- Settles O15: seeded, NEXT is `respondDraw` of the draw itself, its words those of `advance_of_steps`; unseeded, it is
the fault of rule R74. -/
theorem nextAnswersTheDrawAndAdvances : Obligations.NextAnswersTheDrawAndAdvances := by
  intro s operand result t x2 x3 x1 x0 y2 y3 sum shift step3 step4 step5 step6 step7 step8
  refine ⟨decode_next_append operand, fun h => ?_, fun h => ?_⟩
  · have words : advance s.gen = ⟨x0, x1, y2, y3⟩ := by
      rw [advance_of_steps step3 step4, step8, step7, step6, step5, shift]
    have draw : id (drawOf s.gen) = result := sum.symm
    rw [exec_next_of_seeded h, respondDraw_eq, words, draw]
  · rw [exec_next_of_unseeded h, raiseFault_eq]

end Sys2Proof.Machine
end

section
/-! PROOFS. The loop of JUMP and LJUMP (42_jump.md section 1, rules R21, R50): any record of its 256 iterations, one
`JumpRun` for each, ends in what `PolyApply` gives. -/

namespace Sys2Proof.Machine

/-- Rule R50's numbering of the bits, `j = 64*w + b`. -/
theorem tableBit_word (t : Config.Table) (w : Fin 4) {b : Nat} (hb : b < 64) :
    tableBit t (64 * w + b) = (rom t w).getLsbD b := by
  have word : (64 * w.val + b) / 64 = w := by omega
  have bit : (64 * w.val + b) % 64 = b := by omega
  have index : Fin.ofNat 4 w = w := Fin.ofNat_val_eq_self w
  rw [tableBit, word, bit, index]

theorem jumpBits_eq_of_iterations {c : Word} {run : Nat → JumpRun} {n : Nat}
    (iterations : ∀ b, b < n → run (b + 1) = jumpIter (c.getLsbD b) (run b)) : jumpBits c n (run 0) = run n := by
  induction n with
  | zero => rfl
  | succ n ih =>
    have before : jumpBits c n (run 0) = run n := ih fun b hb => iterations b (Nat.lt_succ_of_lt hb)
    rw [jumpBits, before, iterations n (Nat.lt_succ_self n)]

/-- `run j` is the loop of rule R50 over the table `t` before its iteration `j`. -/
def FollowsLoop (t : Config.Table) (run : Nat → JumpRun) : Prop :=
  ∀ j, j < 256 → run (j + 1) = jumpIter (tableBit t j) (run j)

/-- The iterations of table word `w` are those from `64*w` on. -/
theorem FollowsLoop.jumpWord_eq {t : Config.Table} {run : Nat → JumpRun} (h : FollowsLoop t run) (w : Fin 4) :
    jumpWord (rom t w) (run (64 * w)) = run (64 * w + 64) := by
  refine jumpBits_eq_of_iterations (run := fun b => run (64 * w + b)) fun b hb => ?_
  have iteration : run (64 * w + b + 1) = jumpIter (tableBit t (64 * w + b)) (run (64 * w + b)) := h _ (by omega)
  rwa [tableBit_word t w hb] at iteration

theorem FollowsLoop.polyApply_eq {t : Config.Table} {run : Nat → JumpRun} {x : GenState} (h : FollowsLoop t run)
    (start : run 0 = ⟨GenState.zero, x⟩) : polyApply t x = (run 256).acc := by
  have word0 : jumpWord (rom t 0) ⟨GenState.zero, x⟩ = run 64 := start ▸ h.jumpWord_eq 0
  have word1 : jumpWord (rom t 1) (run 64) = run 128 := h.jumpWord_eq 1
  have word2 : jumpWord (rom t 2) (run 128) = run 192 := h.jumpWord_eq 2
  have word3 : jumpWord (rom t 3) (run 192) = run 256 := h.jumpWord_eq 3
  rw [polyApply, word0, word1, word2, word3]

/-- Settles O18: the two sequences, paired, follow the loop, so `PolyApply` ends where they do. -/
theorem polyApplyFollowsItsLoop : Obligations.PolyApplyFollowsItsLoop := by
  intro t x acc live accStart liveStart accStep liveStep
  have loop : FollowsLoop t fun j => ⟨acc j, live j⟩ :=
    fun j hj => congrArg₂ JumpRun.mk (accStep j hj) (liveStep j hj)
  exact loop.polyApply_eq (congrArg₂ JumpRun.mk accStart liveStart)

end Sys2Proof.Machine
end

section
/-! PROOFS. The converters' range laws (43_convert.md section 5, rule R65): the value of the pattern of a multiple of
`2^-52` or `2^-23`, and the bound on the rounded product of NEXTINT. -/

namespace Sys2Proof.Machine

/-- Rules R61 and R63, the closed form: the exponent field counts from the highest set bit of `y`, and the fraction, with
the hidden bit before it, is `y` shifted up to the hidden bit's place. -/
theorem patternOfUnits_fields {fw y : Nat} (bias : Nat) (pos : y ≠ 0) (small : y < 2 ^ fw) :
    ∃ F < 2 ^ fw, patternOfUnits fw bias y = (bias - fw + y.log2) * 2 ^ fw + F ∧
      2 ^ fw + F = y * 2 ^ (fw - y.log2) := by
  have place : y.log2 < fw := (Nat.log2_lt pos).2 small
  have whole : 2 ^ y.log2 * 2 ^ (fw - y.log2) = 2 ^ fw := by rw [← Nat.pow_add, Nat.add_sub_cancel' place.le]
  have low : 2 ^ fw ≤ y * 2 ^ (fw - y.log2) := by
    rw [← whole]
    exact Nat.mul_le_mul_right _ (Nat.log2_self_le pos)
  have high : y * 2 ^ (fw - y.log2) < 2 * 2 ^ fw := by
    rw [← whole, ← mul_assoc, ← Nat.pow_succ']
    exact Nat.mul_lt_mul_of_pos_right Nat.lt_log2_self (Nat.two_pow_pos _)
  refine ⟨y * 2 ^ (fw - y.log2) - 2 ^ fw, by omega, ?_, by omega⟩
  rw [patternOfUnits, if_neg pos, Nat.mod_eq_sub_mod low, Nat.mod_eq_of_lt (by omega)]

/-- The value of a normal number (rules R60, R62) with the fields of `patternOfUnits_fields`. -/
theorem normalValue_eq {fw bias p y F : Nat} (hbias : fw ≤ bias) (hp : p ≤ fw)
    (fraction : 2 ^ fw + F = y * 2 ^ (fw - p)) :
    (2 : ℚ) ^ (((bias - fw + p : Nat) : ℤ) - bias) * (1 + F / 2 ^ fw) = y / 2 ^ fw := by
  have exponent : ((bias - fw + p : Nat) : ℤ) - bias = -((fw - p : Nat) : ℤ) := by omega
  have hidden : (2 : ℚ) ^ fw + F = y * 2 ^ (fw - p) := by exact_mod_cast fraction
  have significand : (1 + F / 2 ^ fw : ℚ) = y * 2 ^ (fw - p) / 2 ^ fw := by
    rw [← hidden, add_div, div_self (by positivity)]
  rw [exponent, significand, zpow_neg, zpow_natCast]
  field_simp

/-- The fields of a pattern packed from an exponent field of `ew` bits and a fraction field of `fw` bits, with the sign
bit at `s` (rules R60, R62). -/
theorem packed_fields {w s ew fw E F : Nat} {p : BitVec w} (hs : s = ew + fw) (packed : p.toNat = E * 2 ^ fw + F)
    (hE : E < 2 ^ ew) (hF : F < 2 ^ fw) :
    (p.extractLsb' fw ew).toNat = E ∧ (p.extractLsb' 0 fw).toNat = F ∧ (p.extractLsb' s 1).toNat = 0 := by
  have below : E * 2 ^ fw + F < 2 ^ s := by
    calc E * 2 ^ fw + F < (E + 1) * 2 ^ fw := by rw [Nat.succ_mul]; omega
      _ ≤ 2 ^ ew * 2 ^ fw := Nat.mul_le_mul_right _ hE
      _ = 2 ^ s := by rw [hs, Nat.pow_add]
  have exponent : (E * 2 ^ fw + F) / 2 ^ fw = E := by
    rw [add_comm, Nat.add_mul_div_right _ _ (Nat.two_pow_pos fw), Nat.div_eq_of_lt hF, zero_add]
  simp only [BitVec.extractLsb'_toNat, packed, Nat.shiftRight_eq_div_pow]
  refine ⟨?_, ?_, ?_⟩
  · rw [exponent, Nat.mod_eq_of_lt hE]
  · rw [pow_zero, Nat.div_one, Nat.mul_add_mod_self_right, Nat.mod_eq_of_lt hF]
  · rw [Nat.div_eq_of_lt below, Nat.zero_mod]

theorem f64Value_packed {p : BitVec 64} {E F : Nat} (packed : p.toNat = E * 2 ^ 52 + F) (hE : 0 < E ∧ E < 2047)
    (hF : F < 2 ^ 52) : f64Value p = some ((2 : ℚ) ^ ((E : ℤ) - 1023) * (1 + F / 2 ^ 52)) := by
  obtain ⟨exponent, fraction, sign⟩ := packed_fields (s := 63) (ew := 11) rfl packed (by omega) hF
  have nonzero : p ≠ 0#64 := by bv_omega
  simp only [f64Value, exponent, fraction, sign, if_neg nonzero, if_pos hE, pow_zero, one_mul]

theorem f32Value_packed {p : BitVec 32} {E F : Nat} (packed : p.toNat = E * 2 ^ 23 + F) (hE : 0 < E ∧ E < 255)
    (hF : F < 2 ^ 23) : f32Value p = some ((2 : ℚ) ^ ((E : ℤ) - 127) * (1 + F / 2 ^ 23)) := by
  obtain ⟨exponent, fraction, sign⟩ := packed_fields (s := 31) (ew := 8) rfl packed (by omega) hF
  have nonzero : p ≠ 0#32 := by bv_omega
  simp only [f32Value, exponent, fraction, sign, if_neg nonzero, if_pos hE, pow_zero, one_mul]

/-- Rule R61: `Bits64(y * 2^-52)` stands for `y * 2^-52`. -/
theorem f64Value_bits64 {y : Nat} (small : y < 2 ^ 52) : f64Value (bits64 y) = some (y / 2 ^ 52 : ℚ) := by
  by_cases zero : y = 0
  · simp [zero, bits64, patternOfUnits, f64Value]
  · obtain ⟨F, hF, pattern, fraction⟩ := patternOfUnits_fields 1023 zero small
    have place : y.log2 < 52 := (Nat.log2_lt zero).2 small
    have packed : (bits64 y).toNat = (1023 - 52 + y.log2) * 2 ^ 52 + F := by
      rw [bits64, pattern, BitVec.toNat_ofNat]
      omega
    rw [f64Value_packed packed (by omega) hF]
    exact congrArg some (normalValue_eq (by omega) place.le fraction)

/-- Rule R63: `Bits32(y * 2^-23)` stands for `y * 2^-23`. -/
theorem f32Value_bits32 {y : Nat} (small : y < 2 ^ 23) : f32Value (bits32 y) = some (y / 2 ^ 23 : ℚ) := by
  by_cases zero : y = 0
  · simp [zero, bits32, patternOfUnits, f32Value]
  · obtain ⟨F, hF, pattern, fraction⟩ := patternOfUnits_fields 127 zero small
    have place : y.log2 < 23 := (Nat.log2_lt zero).2 small
    have packed : (bits32 y).toNat = (127 - 23 + y.log2) * 2 ^ 23 + F := by
      rw [bits32, pattern, BitVec.toNat_ofNat]
      omega
    rw [f32Value_packed packed (by omega) hF]
    exact congrArg some (normalValue_eq (by omega) place.le fraction)

/-- Setting the exponent field of 1.0 leaves the fraction field. -/
theorem extractLsb'_or_setWidth {w n : Nat} {one : BitVec w} (le : n ≤ w) (clear : one.extractLsb' 0 n = 0#n)
    (k : BitVec n) : (one ||| k.setWidth w).extractLsb' 0 n = k := by
  rw [BitVec.extractLsb'_or, clear, BitVec.zero_or, BitVec.extractLsb'_setWidth_of_le (by omega),
    BitVec.extractLsb'_eq_self]

/-- The subtraction of 1.0 leaves the fraction (rule R61). -/
theorem convertF64_eq (r : Word) : convertF64 r = bits64 (fraction52 r).toNat := by
  have fraction := extractLsb'_or_setWidth (one := f64One) (by decide) (by decide) (fraction52 r)
  simp only [convertF64, fraction, binadeUnits, Nat.add_sub_cancel_left]

/-- The subtraction of 1.0 leaves the fraction (rule R63). -/
theorem convertF32_eq (r : Word) : convertF32 r = zeroExtend32 (bits32 (fraction23 r).toNat) := by
  have fraction := extractLsb'_or_setWidth (one := f32One) (by decide) (by decide) (fraction23 r)
  simp only [convertF32, fraction, binadeUnits, Nat.add_sub_cancel_left]

/-- Rule R37: the low half of a zero-extended response value is the 32-bit pattern. -/
@[simp] theorem setWidth_zeroExtend32 (p : BitVec 32) : (zeroExtend32 p).setWidth 32 = p :=
  BitVec.setWidth_setWidth_of_le p (by decide)

/-- The value NEXTF64 answers with (rule R61). -/
theorem f64Value_convertF64 (r : Word) : f64Value (convertF64 r) = some ((fraction52 r).toNat / 2 ^ 52 : ℚ) := by
  rw [convertF64_eq, f64Value_bits64 (fraction52 r).isLt]

/-- The value NEXTF32 answers with (rule R63). -/
theorem f32Value_convertF32 (r : Word) :
    f32Value ((convertF32 r).setWidth 32) = some ((fraction23 r).toNat / 2 ^ 23 : ℚ) := by
  rw [convertF32_eq, setWidth_zeroExtend32, f32Value_bits32 (fraction23 r).isLt]

/-- A fraction of `w` bits, as a number, is in [0,1). -/
theorem fraction_mem_unit {w : Nat} (k : BitVec w) : 0 ≤ (k.toNat / 2 ^ w : ℚ) ∧ (k.toNat / 2 ^ w : ℚ) < 1 := by
  have below : (k.toNat : ℚ) < 2 ^ w := by exact_mod_cast k.isLt
  exact ⟨by positivity, (div_lt_one (by positivity)).2 below⟩

/-- Rounding is monotone towards an integer: what does not exceed `m` is not rounded above it. -/
theorem roundHalfEven_le {num den m : Nat} (hden : 0 < den) (h : num ≤ m * den) : roundHalfEven num den ≤ m := by
  have quotient : num / den ≤ m := Nat.div_le_of_le_mul (by rwa [mul_comm])
  have up (half : den ≤ 2 * (num % den)) : num / den + 1 ≤ m := by
    have parts := Nat.div_add_mod num den
    by_contra above
    have full : num / den = m := by omega
    rw [full, mul_comm] at parts
    omega
  dsimp only [roundHalfEven]
  split_ifs with down above even
  · exact quotient
  · exact up (by omega)
  · exact quotient
  · exact up (by omega)

/-- A multiple of the unit that lies a whole unit above is not reached. -/
theorem roundHalfEven_mul_lt {n u m : Nat} (hu : 0 < u) (dvd : u ∣ m) (h : n + u ≤ m) : roundHalfEven n u * u < m := by
  have before : (m / u - 1) * u = m - u := by rw [Nat.sub_one_mul, Nat.div_mul_cancel dvd]
  have rounded : roundHalfEven n u ≤ m / u - 1 := roundHalfEven_le hu (by omega)
  calc roundHalfEven n u * u ≤ (m / u - 1) * u := Nat.mul_le_mul_right u rounded
    _ < m := by omega

theorem log2_mul_le (d : Nat) {k n : Nat} (hk : k < 2 ^ n) : (d * k).log2 ≤ d.log2 + n := by
  by_cases zero : d * k = 0
  · simp [zero]
  · refine Nat.lt_succ_iff.1 ((Nat.log2_lt zero).2 ?_)
    calc d * k < 2 ^ (d.log2 + 1) * 2 ^ n := Nat.mul_lt_mul'' Nat.lt_log2_self hk
      _ = 2 ^ (d.log2 + n + 1) := by rw [← Nat.pow_add, Nat.add_right_comm]

/-- Rule R65's derivation: the exact product lies at least `d` units of `2^-52` below `d`, and rounding is to a unit `u`
of at most `d` of them, so `d - u`, a multiple of `u`, lies between the product and `d`. -/
theorem rne64_mul_lt {d k : Nat} (hd : 0 < d) (hd' : d < 2 ^ 32) (hk : k < 2 ^ 52) : rne64 (d * k) < d * 2 ^ 52 := by
  have product : d * k + d ≤ d * 2 ^ 52 := Nat.mul_le_mul_left d hk
  have exponent := log2_mul_le d hk
  have unit_le : 2 ^ ((d * k).log2 - 52) ≤ d :=
    (Nat.pow_le_pow_right two_pos (by omega)).trans (Nat.log2_self_le hd.ne')
  have place : d.log2 < 32 := (Nat.log2_lt hd.ne').2 hd'
  have unit_dvd : 2 ^ ((d * k).log2 - 52) ∣ d * 2 ^ 52 := (Nat.pow_dvd_pow 2 (by omega)).mul_left d
  exact roundHalfEven_mul_lt (Nat.two_pow_pos _) unit_dvd (by omega)

theorem scaledDraw_lt {d : Nat} (hd : 0 < d) (hd' : d < 2 ^ 32) (r : Word) : scaledDraw d r < d :=
  (Nat.div_lt_iff_lt_mul (Nat.two_pow_pos 52)).2 (rne64_mul_lt hd hd' (fraction52 r).isLt)

theorem intResult_mem {a b : Int} (ha : inI32 a) (hb : inI32 b) (hab : a < b) (r : Word) :
    a ≤ intResult a b r ∧ intResult a b r < b := by
  have below := scaledDraw_lt (d := (b - a).toNat) (by omega) (by omega) r
  unfold intResult
  omega

theorem toInt_patternI32 {x : Int} (hx : inI32 x) : (patternI32 x).toInt = x :=
  BitVec.toInt_ofInt_eq_self (by decide) hx.1 (by have := hx.2; omega)

/-- Settles O28: the fractions are below 1 (`fraction_mem_unit`), and NEXTINT's sum is in [a,b) (`intResult_mem`), so that
it fits its pattern. -/
theorem convertersStayInRange : Obligations.ConvertersStayInRange := by
  refine fun r => ⟨⟨_, f64Value_convertF64 r, fraction_mem_unit _⟩, ⟨_, f32Value_convertF32 r, fraction_mem_unit _⟩,
    fun a b ha hb hab => ?_⟩
  obtain ⟨low, high⟩ := intResult_mem ha hb hab r
  have fits : inI32 (intResult a b r) := ⟨ha.1.trans low, high.le.trans hb.2⟩
  rw [convertInt, setWidth_zeroExtend32, toInt_patternI32 fits]
  exact ⟨low, high⟩

end Sys2Proof.Machine
end

section
/-! PROOFS. Faults (60_exceptions.md): which fault a command meets, in the order of rule R72, what taking it leaves, and
that the next command does not notice it (rules R71 to R75). -/

namespace Sys2Proof.Machine

/-- Rule R74: an unseeded engine has one fault, and SEED alone escapes it. -/
theorem faultOf_unseeded_iff {i : Instr} {c : Code} :
    faultOf i false = some c ↔ c = .unseeded ∧ ∀ v, i ≠ .seed v := by
  cases i <;> simp [faultOf, eq_comm]

/-- Rule R75: a seeded engine has one fault, and NEXTINT alone meets it. -/
theorem faultOf_seeded_iff {i : Instr} {c : Code} :
    faultOf i true = some c ↔ c = .range ∧ ∃ a b, i = .nextint a b ∧ b ≤ a := by
  cases i <;> simp [faultOf, and_comm, eq_comm]

theorem exec_of_fault {i : Instr} {s : State} {c : Code} (h : faultOf i s.seeded = some c) :
    exec i s = .next (raiseFault c s) := by
  rw [exec_eq, h]

theorem exec_of_no_fault {i : Instr} {s : State} (h : faultOf i s.seeded = none) :
    exec i s = .next (completed i s) := by
  rw [exec_eq, h]

/-- Settles O29: `faultOf_unseeded_iff` gives the fault, and `raiseFault_eq` what it leaves. -/
theorem unseededCommandsFault : Obligations.UnseededCommandsFault := by
  intro i s notSeed unseeded
  have fault : faultOf i s.seeded = some .unseeded := by
    rw [unseeded]
    exact faultOf_unseeded_iff.2 ⟨rfl, notSeed⟩
  rw [exec_of_fault fault, raiseFault_eq]

/-- Settles O30: a bad range is the fault of a seeded engine, and hidden by UNSEEDED on any other. -/
theorem badRangeFaults : Obligations.BadRangeFaults := by
  intro a b s bad
  have fault : faultOf (.nextint a b) s.seeded = some (if s.seeded then .range else .unseeded) := by
    cases s.seeded with
    | false => exact faultOf_unseeded_iff.2 ⟨rfl, fun _ => nofun⟩
    | true => exact faultOf_seeded_iff.2 ⟨rfl, a, b, rfl, bad⟩
  rw [exec_of_fault fault, raiseFault_eq]

/-- Rule R35: the decoder refuses the opcodes of rule R73. -/
theorem decode_of_illegal {cw : CmdWord} (h : (opcodeField cw).toNat = 0 ∨ 8 ≤ (opcodeField cw).toNat) :
    decode cw = .error (.illegalOpcode (opcodeField cw)) := by
  unfold decode
  split
  any_goals omega
  rfl

theorem runCommand_of_error {cw : CmdWord} {e : DecodeError} (h : decode cw = .error e) (s : State) :
    runCommand cw s = .next (raiseFault .illegal s) := by
  cases e
  simp only [runCommand, h]

theorem runCommand_of_ok {cw : CmdWord} {i : Instr} (h : decode cw = .ok i) (s : State) :
    runCommand cw s = exec i s := by
  simp only [runCommand, h]

/-- A word that is no operation has no small steps. -/
theorem beginCommand_of_error {cw : CmdWord} {e : DecodeError} (h : decode cw = .error e) (s : State) :
    beginCommand cw s = .next (raiseFault .illegal s) := by
  simp only [beginCommand, h, runCommand_of_error h]

/-- Settles O31: the word decodes to nothing, and then the whole move and the small one are the same fault. -/
theorem illegalWordsFault : Obligations.IllegalWordsFault := by
  intro s cw released accepted move illegal
  have refused := decode_of_illegal illegal
  have fault : step s = .next (raiseFault .illegal s.popMove) := by
    rw [step_eq]
    rcases move with whole | small
    · rw [whole]
      exact (engineMove_accepted (s := s.popMove) released accepted).trans (runCommand_of_error refused _)
    · rw [small]
      exact (engineMove_accepted (s := s.popMove) released accepted).trans (beginCommand_of_error refused _)
  rw [fault, raiseFault_eq, State.popMove]

/-- An instruction's response names the fault it meets, and no other. -/
theorem exec_code (i : Instr) (s : State) : ∃ t r, exec i s = .next t ∧ t.rsp = some r ∧
    ∀ c, c ≠ .ok → (r.code = c ↔ faultOf i s.seeded = some c) := by
  cases fault : faultOf i s.seeded with
  | none => exact ⟨_, _, exec_of_no_fault fault, rfl, fun c notOk => by simp [notOk.symm]⟩
  | some d => exact ⟨_, _, exec_of_fault fault, rfl, fun c _ => by simp⟩

/-- Settles O32: a word that decodes to nothing is ILLEGAL; an instruction's code is that of its fault (`exec_code`), of
which an unseeded engine has one and a seeded engine the other. -/
theorem faultPriority : Obligations.FaultPriority := by
  intro cw s
  cases decoded : decode cw with
  | error e => exact ⟨_, _, runCommand_of_error decoded s, rfl, by simp, by simp, by simp⟩
  | ok i =>
    obtain ⟨t, r, answer, response, code⟩ := exec_code i s
    refine ⟨t, r, (runCommand_of_ok decoded s).trans answer, response, ?_⟩
    cases seeded : s.seeded with
    | false => simp [code, seeded, faultOf_unseeded_iff]
    | true => simp [code, seeded, faultOf_seeded_iff]

/-- No instruction reads what a fault writes: after the fault it answers as before it, with ERR set. -/
theorem exec_raiseFault (i : Instr) (c : Code) (s : State) :
    ∃ u v, exec i (raiseFault c s) = .next u ∧ exec i s = .next v ∧ u = { v with err := true } := by
  refine ⟨_, _, exec_eq i _, exec_eq i s, ?_⟩
  rw [raiseFault_seeded]
  cases faultOf i s.seeded with
  | none => rfl
  | some d => rfl

/-- Rule R71: nor does any command word. -/
theorem runCommand_raiseFault (cw : CmdWord) (c : Code) (s : State) :
    ∃ u v, runCommand cw (raiseFault c s) = .next u ∧ runCommand cw s = .next v ∧ u = { v with err := true } := by
  cases decoded : decode cw with
  | error e => exact ⟨_, _, runCommand_of_error decoded _, runCommand_of_error decoded s, rfl⟩
  | ok i =>
    simp only [runCommand_of_ok decoded]
    exact exec_raiseFault i c s

/-- Settles O33: an answer other than OK is a fault taken (`runCommand_next`), which `runCommand_raiseFault` hides from
the next command. -/
theorem faultsLeaveNoTraceButErr : Obligations.FaultsLeaveNoTraceButErr := by
  intro cw next s
  obtain ⟨t, r, answer, response, -, -, kept, -, outcome⟩ := runCommand_next cw s
  refine ⟨t, r, answer, response, kept, fun notOk => ?_⟩
  rcases outcome with ⟨-, -, -, -, ok⟩ | ⟨c, -, rfl, rfl⟩
  · exact absurd ok notOk
  · exact ⟨raiseFault_eq _ s, runCommand_raiseFault next _ s⟩

end Sys2Proof.Machine
end

section
/-! PROOFS. Decoding and encoding undo one another (30_encoding.md sections 2 to 5), and the two fields of a response word
(section 6). -/

namespace Sys2Proof.Machine

/-! ## Decoding the word of an opcode and an operand -/

@[simp] theorem lowerBoundField_append (op : BitVec 8) (v : Word) :
    lowerBoundField (op ++ v) = (v.extractLsb' 0 32).toInt := by
  rw [lowerBoundField, BitVec.extractLsb'_append_eq_of_add_le (by decide)]

@[simp] theorem upperBoundField_append (op : BitVec 8) (v : Word) :
    upperBoundField (op ++ v) = (v.extractLsb' 32 32).toInt := by
  rw [upperBoundField, BitVec.extractLsb'_append_eq_of_add_le (by decide)]

/-- Rule R33: NEXTINT's bounds are the two halves of its operand. -/
@[simp] theorem decode_nextint_append (v : Word) : decode (0x07#8 ++ v) =
    .ok (.nextint (v.extractLsb' 0 32).toInt (v.extractLsb' 32 32).toInt) := by simp [decode]

/-- Rule R33: bounds that fit their fields are read back from the word that carries them. -/
theorem decode_nextint_bounds {a b : Int} (ha : inI32 a) (hb : inI32 b) :
    decode (0x07#8 ++ (BitVec.ofInt 32 b ++ BitVec.ofInt 32 a)) = .ok (.nextint a b) := by
  have lower : (BitVec.ofInt 32 a).toInt = a := toInt_patternI32 ha
  have upper : (BitVec.ofInt 32 b).toInt = b := toInt_patternI32 hb
  rw [decode_nextint_append, BitVec.extractLsb'_append_eq_right, BitVec.extractLsb'_append_eq_left, lower, upper]

theorem wf_nextint_iff {a b : Int} : (Instr.nextint a b).wf = true ↔ inI32 a ∧ inI32 b := by
  simp only [Instr.wf, Bool.and_eq_true, decide_eq_true_eq]

/-- Settles O1: each operation's word is its opcode before its operand, and only NEXTINT's operand has to fit. -/
theorem decodeOfEncodeIsIdentity : Obligations.DecodeOfEncodeIsIdentity := by
  intro i wf
  cases i with
  | seed v => exact decode_seed_append v
  | next => exact decode_next_append _
  | jump => exact decode_jump_append _
  | ljump => exact decode_ljump_append _
  | nextf32 => exact decode_nextf32_append _
  | nextf64 => exact decode_nextf64_append _
  | nextint a b =>
    obtain ⟨ha, hb⟩ := wf_nextint_iff.1 wf
    exact decode_nextint_bounds ha hb

/-! ## Encoding what a word decodes to -/

/-- Rule R30: a command word is its two fields. -/
theorem opcodeField_append_operandField (cw : CmdWord) : opcodeField cw ++ operandField cw = cw := by
  exact (BitVec.extractLsb'_append_extractLsb'_eq_extractLsb' rfl).trans BitVec.extractLsb'_eq_self

/-- Rule R31: the operation a word decodes to is that of its opcode. -/
theorem opcodeOf_of_decode {cw : CmdWord} {i : Instr} (h : decode cw = .ok i) : opcodeOf i = opcodeField cw := by
  unfold decode at h
  split at h <;> cases h <;> exact BitVec.eq_of_toNat_eq (Eq.symm ‹_›)

/-- A word that decodes is the opcode of its operation before its operand. -/
theorem eq_append_of_decode {cw : CmdWord} {i : Instr} (h : decode cw = .ok i) :
    cw = opcodeOf i ++ operandField cw := by
  rw [opcodeOf_of_decode h, opcodeField_append_operandField]

/-- Rule R33: a signed field is in the range of an `i32`. -/
theorem inI32_toInt (x : BitVec 32) : inI32 x.toInt :=
  ⟨BitVec.le_toInt x, Int.lt_add_one_iff.1 BitVec.toInt_lt⟩

/-- Rule R33: the two halves of an operand, put together again. -/
theorem ofInt_append_ofInt_halves (v : Word) :
    BitVec.ofInt 32 (v.extractLsb' 32 32).toInt ++ BitVec.ofInt 32 (v.extractLsb' 0 32).toInt = v := by
  rw [BitVec.ofInt_toInt, BitVec.ofInt_toInt]
  exact (BitVec.extractLsb'_append_extractLsb'_eq_extractLsb' rfl).trans BitVec.extractLsb'_eq_self

/-- Settles O2: the word is its operation's opcode before an operand (`eq_append_of_decode`), which SEED and NEXTINT
carry and the other five do not. -/
theorem encodeOfDecodeIsTheWord : Obligations.EncodeOfDecodeIsTheWord := by
  intro cw i h
  have opcode := opcodeOf_of_decode h
  have word := eq_append_of_decode h
  cases i with
  | seed v =>
    have operand : v = operandField cw := by
      rw [word] at h
      simpa [opcodeOf] using h.symm
    exact ⟨rfl, opcode, by rw [word, ← operand]; rfl⟩
  | nextint a b =>
    have bounds : a = ((operandField cw).extractLsb' 0 32).toInt ∧ b = ((operandField cw).extractLsb' 32 32).toInt := by
      rw [word] at h
      simpa [opcodeOf, eq_comm] using h
    obtain ⟨rfl, rfl⟩ := bounds
    exact ⟨wf_nextint_iff.2 ⟨inI32_toInt _, inI32_toInt _⟩, opcode,
      (congrArg _ (ofInt_append_ofInt_halves _)).trans word.symm⟩
  | next => exact ⟨rfl, opcode, congrArg (· ++ 0#64) opcode⟩
  | jump => exact ⟨rfl, opcode, congrArg (· ++ 0#64) opcode⟩
  | ljump => exact ⟨rfl, opcode, congrArg (· ++ 0#64) opcode⟩
  | nextf32 => exact ⟨rfl, opcode, congrArg (· ++ 0#64) opcode⟩
  | nextf64 => exact ⟨rfl, opcode, congrArg (· ++ 0#64) opcode⟩

/-- Settles O4: the opcodes of rule R35 decode to nothing (`decode_of_illegal`), and each of the seven others decodes to
an operation. -/
theorem decoderRefusesExactlyTheIllegalOpcodes : Obligations.DecoderRefusesExactlyTheIllegalOpcodes := by
  refine fun cw => ⟨fun ⟨e, refused⟩ => ?_, fun illegal => ⟨_, decode_of_illegal illegal⟩⟩
  by_contra legal
  have opcodes : (opcodeField cw).toNat = 1 ∨ (opcodeField cw).toNat = 2 ∨ (opcodeField cw).toNat = 3 ∨
      (opcodeField cw).toNat = 4 ∨ (opcodeField cw).toNat = 5 ∨ (opcodeField cw).toNat = 6 ∨
      (opcodeField cw).toNat = 7 := by omega
  rcases opcodes with h | h | h | h | h | h | h <;> simp [decode, h] at refused

/-- Settles O5: the words of the spec's table, one by one. -/
theorem specWordsDecodeAsListed : Obligations.SpecWordsDecodeAsListed :=
  ⟨by decide, by decide, by decide, by decide, by decide, by decide, by decide, by decide, by decide⟩

/-- Settles O7: a response word is its code's bits before its value. -/
theorem responseWordFields : Obligations.ResponseWordFields :=
  ⟨fun _ => ⟨BitVec.extractLsb'_append_eq_left, BitVec.extractLsb'_append_eq_right⟩, rfl, rfl, rfl, rfl⟩

end Sys2Proof.Machine
end

section
/-! PROOFS. SEED (40_seed.md): the mixing function is a bijection (section 1), the loop's words are the unrolled form
(section 2), and what follows about zero words and distinct seeds (section 3). -/

namespace Sys2Proof.Machine

/-! ## The mixing function -/

/-- Only zero is left alone by a right shift, so the exclusive-or with one loses nothing (rule R40). -/
theorem xorShr_injective {k : Nat} (hk : 0 < k) : Function.Injective (xorShr · k) := by
  intro x y h
  have linear : x ^^^ y ^^^ (x >>> k ^^^ y >>> k) = 0#64 := by
    rw [word_xor_xor_xor_comm]
    exact BitVec.xor_eq_zero_iff.2 h
  have fixed : x ^^^ y = (x ^^^ y) >>> k := by
    rw [BitVec.ushiftRight_xor_distrib]
    exact BitVec.xor_eq_zero_iff.1 linear
  have quotient : (x ^^^ y).toNat = (x ^^^ y).toNat / 2 ^ k := by
    rw [← Nat.shiftRight_eq_div_pow, ← BitVec.toNat_ushiftRight, ← fixed]
  have zero : (x ^^^ y).toNat = 0 := by
    by_contra pos
    exact (Nat.div_lt_self (Nat.pos_of_ne_zero pos) (Nat.one_lt_two_pow hk.ne')).ne quotient.symm
  exact BitVec.xor_eq_zero_iff.1 (BitVec.eq_of_toNat_eq zero)

/-- Multiplication by a word that has an inverse modulo `2^64` loses nothing. -/
theorem mul64_injective {c inverse : Word} (h : inverse * c = 1#64) : Function.Injective (mul64 c) := by
  refine Function.LeftInverse.injective (g := mul64 inverse) fun x => ?_
  rw [mul64, mul64, ← BitVec.mul_assoc, h, BitVec.one_mul]

theorem mix64_injective : Function.Injective mix64 := by
  have first : Function.Injective (mul64 0xBF58476D1CE4E5B9#64) :=
    mul64_injective (inverse := 0x96DE1B173F119089#64) (by decide)
  have second : Function.Injective (mul64 0x94D049BB133111EB#64) :=
    mul64_injective (inverse := 0x319642B2D24D8EC3#64) (by decide)
  intro x y h
  exact xorShr_injective (by decide) (first (xorShr_injective (by decide) (second (xorShr_injective (by decide) h))))

theorem mix64_zero : mix64 0#64 = 0#64 := by decide

theorem mix64_eq_zero_iff (z : Word) : mix64 z = 0#64 ↔ z = 0#64 := by
  rw [← mix64_zero, mix64_injective.eq_iff, mix64_zero]

/-- Rule R40's steps, one by one; the model multiplies from the other side. -/
theorem mix64_of_steps {z t1 t2 t3 t4 : Word} (step1 : t1 = z ^^^ (z >>> 30)) (step2 : t2 = t1 * 0xBF58476D1CE4E5B9#64)
    (step3 : t3 = t2 ^^^ (t2 >>> 27)) (step4 : t4 = t3 * 0x94D049BB133111EB#64) :
    mix64 z = t4 ^^^ (t4 >>> 31) := by
  rw [BitVec.mul_comm] at step2 step4
  subst step1 step2 step3 step4
  rfl

/-- Settles O10: words are finitely many, so that the injection `mix64` is a bijection. -/
theorem mixingFollowsItsStepsAndIsBijective : Obligations.MixingFollowsItsStepsAndIsBijective :=
  ⟨fun _ _ _ _ _ => mix64_of_steps, mix64_injective.bijective_of_finite, mix64_eq_zero_iff, by decide⟩

/-! ## The loop of SEED -/

/-- Where SEED `value` stands before iteration `i` (rule R41): the accumulator is the value after `i` additions, and the
words below `i` are written. -/
def SeedProgress (value : Word) (i : Nat) (p : Word × GenState) : Prop :=
  p.1 = BitVec.ofNat 64 i * seedGamma + value ∧ ∀ k : Fin 4, k.val < i → p.2.word k = seedWord value k.val

theorem seedProgress_zero (value : Word) (g : GenState) : SeedProgress value 0 (value, g) :=
  ⟨by simp, fun _ h => absurd h (Nat.not_lt_zero _)⟩

/-- One more addition of the constant. -/
theorem nextSeedAcc_eq (value : Word) (i : Nat) :
    nextSeedAcc (BitVec.ofNat 64 i * seedGamma + value) = BitVec.ofNat 64 (i + 1) * seedGamma + value := by
  rw [nextSeedAcc, add64, BitVec.ofNat_add, BitVec.add_mul, BitVec.one_mul, ← BitVec.add_assoc,
    BitVec.add_comm seedGamma]

theorem SeedProgress.seedIter {value : Word} {i : Nat} {p : Word × GenState} (h : SeedProgress value i p) :
    SeedProgress value (i + 1) (seedIter i p) := by
  obtain ⟨acc, written⟩ := h
  have next : nextSeedAcc p.1 = BitVec.ofNat 64 (i + 1) * seedGamma + value := by rw [acc, nextSeedAcc_eq]
  refine ⟨next, fun k hk => ?_⟩
  rw [Machine.seedIter, word_setWord, next]
  split
  case isTrue here => rw [here, seedWord]
  case isFalse other => exact written k (by omega)

/-- Rule R41: word `k` after SEED, in unrolled form. -/
theorem word_seedWords (value : Word) (old : GenState) (k : Fin 4) :
    (seedWords value old).word k = seedWord value k.val :=
  (seedProgress_zero value old).seedIter.seedIter.seedIter.seedIter.2 k k.isLt

/-- Words that are those of one seed are what SEED leaves. -/
theorem SeedProgress.eq_seedWords {value : Word} {i : Nat} {p : Word × GenState} (h : SeedProgress value i p)
    (done : 4 ≤ i) (old : GenState) : p.2 = seedWords value old :=
  genState_ext fun k => (h.2 k (k.isLt.trans_le done)).trans (word_seedWords value old k).symm

/-- Rule R41: SEED needs nothing of the words before. -/
theorem seedWords_old (value : Word) (g h : GenState) : seedWords value g = seedWords value h :=
  genState_ext fun k => by rw [word_seedWords, word_seedWords]

/-- Settles O12: the unrolled form, its sum and product turned round. -/
theorem seedWordsAreTheUnrolledForm : Obligations.SeedWordsAreTheUnrolledForm := by
  intro value old k
  rw [word_seedWords, seedWord, BitVec.add_comm, BitVec.ofNat_add]
  rfl

/-- Settles O11: SEED completes (`exec_seed_eq`), and the words of its loop are those of the four sums. -/
theorem seedWritesTheExpandedWords : Obligations.SeedWritesTheExpandedWords := by
  intro value z1 z2 z3 z4 sum1 sum2 sum3 sum4
  refine ⟨decode_seed_append value, fun s => ?_⟩
  have words (old : GenState) : seedWords value old = ⟨mix64 z1, mix64 z2, mix64 z3, mix64 z4⟩ := by
    rw [BitVec.add_comm] at sum1 sum2 sum3 sum4
    subst sum1 sum2 sum3 sum4
    rfl
  rw [exec_seed_eq, completed, completedGen, words]
  rfl

/-! ## Zero words and distinct seeds -/

/-- Rule R42: the constant has an inverse, so the four sums of one seed are different. -/
theorem seedWord_injective (value : Word) : Function.Injective fun k : Fin 4 => seedWord value k.val := by
  have sums : Function.Injective fun k : Fin 4 => BitVec.ofNat 64 (k.val + 1) * seedGamma := by decide
  intro j k h
  exact sums (add_right_cancel (mix64_injective h))

/-- Settles O13: two zero words of one seed would be equal (`seedWord_injective`). -/
theorem seedLeavesAtMostOneWordZero : Obligations.SeedLeavesAtMostOneWordZero := by
  refine fun value s => ⟨_, exec_seed_eq value s, fun i j distinct zero again => distinct ?_⟩
  have same : (seedWords value s.gen).word i = (seedWords value s.gen).word j := zero.trans again.symm
  rw [word_seedWords, word_seedWords] at same
  exact seedWord_injective value same

/-- Rule R43: the first word alone tells the seeds apart. -/
theorem seedWords_inj {v w : Word} {g h : GenState} : seedWords v g = seedWords w h ↔ v = w := by
  constructor
  · intro same
    have first : seedWord v 0 = seedWord w 0 :=
      (word_seedWords v g 0).symm.trans ((congrArg (·.word 0) same).trans (word_seedWords w h 0))
    exact add_left_cancel (mix64_injective first)
  · rintro rfl
    exact seedWords_old v g h

/-- Settles O14: SEED leaves `seedWords`, whatever the state. -/
theorem seedStateDeterminesTheSeed : Obligations.SeedStateDeterminesTheSeed :=
  fun v w s t => ⟨_, _, exec_seed_eq v s, exec_seed_eq w t, seedWords_inj⟩

end Sys2Proof.Machine
end

section
/-! PROOFS. The update of the words (41_next.md section 3, rules R46, R47): linear, and a bijection. -/

namespace Sys2Proof.Machine

/-- Settles O16: the closed form and its linearity (`advance_mk`, `advance_xor`). -/
theorem stateMapIsLinear : Obligations.StateMapIsLinear :=
  ⟨advance_mk, fun _ _ _ _ => rfl, advance_xor, advance_zero⟩

theorem xor_eq_zero_iff {x y : GenState} : x.xor y = GenState.zero ↔ x = y := by
  obtain ⟨a, b, c, d⟩ := x
  obtain ⟨a', b', c', d'⟩ := y
  simp only [GenState.xor, GenState.zero, GenState.mk.injEq, BitVec.xor_eq_zero_iff]

/-- Only zero is left alone by a left shift. -/
theorem eq_zero_of_shiftLeft_eq {b : Word} {k : Nat} (hk : 0 < k) (h : b = b <<< k) : b = 0#64 := by
  have clear (i : Nat) : b.getLsbD i = false := by
    induction i using Nat.strong_induction_on with
    | _ i ih =>
      rw [h, BitVec.getLsbD_shiftLeft]
      by_cases low : i < k
      · simp [low]
      · simp [ih (i - k) (by omega)]
  exact BitVec.eq_of_getLsbD_eq fun i _ => by simp [clear i]

/-- Rule R47: the update leads to the zero state from nowhere else. The draw's words give `d = b` and `a = 0`, then
`c = b` and `b = b <<< 17`. -/
theorem advance_eq_zero_iff {x : GenState} : advance x = GenState.zero ↔ x = GenState.zero := by
  refine ⟨fun h => ?_, fun h => by rw [h, advance_zero]⟩
  obtain ⟨a, b, c, d⟩ := x
  rw [advance_mk, GenState.zero, GenState.mk.injEq] at h
  obtain ⟨word0, word1, word2, word3⟩ := h
  have rotated := rotl64_rotl64_of_add_eq (b ^^^ d) (j := 45) (k := 19) (by decide) (by decide) rfl
  rw [word3] at rotated
  have outer : d = b := (BitVec.xor_eq_zero_iff.1 (rotated.symm.trans (by decide))).symm
  have first : a = 0#64 := by simpa [outer, BitVec.xor_assoc] using word0
  have inner : b = c := by simpa [first, BitVec.xor_eq_zero_iff] using word1
  have shifted : c = b <<< 17 := by simpa [first, BitVec.xor_eq_zero_iff] using word2
  have second : b = 0#64 := eq_zero_of_shiftLeft_eq (by decide) (inner.trans shifted)
  rw [outer, ← inner, first, second]
  rfl

theorem advance_injective : Function.Injective advance := by
  intro x y h
  have difference : advance (x.xor y) = GenState.zero := by rw [advance_xor, h, xor_self]
  exact xor_eq_zero_iff.1 (advance_eq_zero_iff.1 difference)

theorem finite_genState : Finite GenState := by
  refine Finite.of_injective (fun g => (g.s0, g.s1, g.s2, g.s3)) fun g h same => ?_
  cases g
  cases h
  simpa using same

/-- Settles O17: the 256-bit states are finitely many, so that the injection `advance` is a bijection. -/
theorem stateMapIsBijective : Obligations.StateMapIsBijective :=
  have := finite_genState
  ⟨advance_injective.bijective_of_finite, fun _ => advance_eq_zero_iff⟩

theorem iterate_advance_ne_zero {x : GenState} (n : Nat) (h : x ≠ GenState.zero) : advance^[n] x ≠ GenState.zero := by
  rw [← iterate_advance_zero n]
  exact (advance_injective.iterate n).ne h

end Sys2Proof.Machine
end

section
/-! PROOFS. JUMP and LJUMP (42_jump.md): the applicator is a polynomial in the update map (section 1), which for the two
tables is a huge power of it (section 4), and what the two operations leave (sections 2 and 3). -/

namespace Sys2Proof.Machine

/-! ## The closed form of the applicator -/

/-- Rule R56: the loop of rule R50 sums the states its set bits select. -/
theorem polyApply_eq_polySum (t : Config.Table) (x : GenState) : polyApply t x = polySum t x 256 :=
  polyApplyFollowsItsLoop t x (polySum t x) (advance^[·] x) rfl rfl (fun _ _ => rfl)
    fun j _ => Function.iterate_succ_apply' advance j x

/-- A table as a polynomial over GF(2): bit `64*w + b` is bit `b` of word `w` (42_jump.md section 4). -/
def tablePoly (t : Config.Table) : Nat := (t.w3 ++ (t.w2 ++ (t.w1 ++ t.w0))).toNat

theorem testBit_tablePoly (t : Config.Table) {j : Nat} (hj : j < 256) : (tablePoly t).testBit j = tableBit t j := by
  obtain ⟨w, b, hb, rfl⟩ : ∃ (w : Fin 4) (b : Nat), b < 64 ∧ j = 64 * w + b :=
    ⟨⟨j / 64, by omega⟩, j % 64, by omega, by simp only; omega⟩
  simp only [tableBit_word t w hb, tablePoly, BitVec.testBit_toNat, BitVec.getLsbD_append]
  match w with
  | 0 => simp [rom, hb, show b < 128 by omega, show b < 192 by omega]
  | 1 => simp [rom, hb, show 64 + b < 128 by omega, show 64 + b < 192 by omega]
  | 2 => simp [rom, hb, show 128 + b < 192 by omega]
  | 3 => simp [rom, hb]

/-- The closed form of rule R56 is the polynomial of the table. -/
theorem polySum_eq_polyEval (t : Config.Table) (x : GenState) :
    ∀ n ≤ 256, polySum t x n = polyEval (tablePoly t) x n := by
  intro n
  induction n with
  | zero => intro _; rfl
  | succ n ih => intro hn; rw [polySum, polyEval, ih (by omega), testBit_tablePoly t (by omega)]

theorem polyApply_eq_polyEval (t : Config.Table) (x : GenState) : polyApply t x = polyEval (tablePoly t) x 256 :=
  (polyApply_eq_polySum t x).trans (polySum_eq_polyEval t x 256 (Nat.le_refl _))

theorem tablePoly_lt (t : Config.Table) : tablePoly t < 2 ^ 256 := BitVec.isLt _

theorem tableBit_singleBitTable {j i : Nat} (hi : i < 256) :
    tableBit (singleBitTable j) i = decide (j = i) := by
  obtain ⟨w, b, hb, rfl⟩ : ∃ (w : Fin 4) (b : Nat), b < 64 ∧ i = 64 * w + b :=
    ⟨⟨i / 64, by omega⟩, i % 64, by omega, by simp only; omega⟩
  have word : rom (singleBitTable j) w = if j / 64 = w then 1#64 <<< (j % 64) else 0#64 := by
    fin_cases w <;> rfl
  rw [tableBit_word _ w hb, word]
  by_cases here : j / 64 = w
  · rw [if_pos here, ← BitVec.twoPow_eq, BitVec.getLsbD_twoPow, decide_eq_true (Nat.mod_lt _ (by decide)), Bool.true_and]
    exact decide_eq_decide.2 (by omega)
  · rw [if_neg here, BitVec.getLsbD_zero, decide_eq_false (by omega)]

/-- Rule R56: the table with bit `j` alone is the polynomial `T^j`. -/
theorem tablePoly_singleBitTable {j : Nat} (hj : j < 256) : tablePoly (singleBitTable j) = 1 <<< j := by
  refine Nat.eq_of_testBit_eq fun i => ?_
  rw [Nat.one_shiftLeft, Nat.testBit_two_pow]
  by_cases hi : i < 256
  · rw [testBit_tablePoly _ hi, tableBit_singleBitTable hi]
  · rw [Nat.testBit_lt_two_pow ((tablePoly_lt _).trans_le (Nat.pow_le_pow_right two_pos (by omega))),
      decide_eq_false (by omega)]

/-- Settles O19: the laws of `polyEval`, for the polynomial of the table. -/
theorem polyApplyClosedForm : Obligations.PolyApplyClosedForm := by
  refine ⟨polyApply_eq_polySum, fun t x y => ?_, fun t x => ?_, fun j x hj => ?_, fun x => ?_⟩
  · simp only [polyApply_eq_polyEval, polyEval_xor_right]
  · simp only [polyApply_eq_polyEval]
    exact polyEval_iterate (tablePoly t) x 1 256
  · rw [polyApply_eq_polyEval, tablePoly_singleBitTable hj, polyEval_pow x hj]
  · exact (polyApply_eq_polyEval _ x).trans (polyEval_zero x 256)

/-! ## The two tables as powers of the update -/

theorem tablePoly_jumpTable :
    tablePoly jumpTable = 0x39ABDC4529B1661C_A9582618E03FC9AA_D5A61266F0C9392C_180EC6D33CFD0ABA := by
  decide +kernel

theorem tablePoly_longJumpTable :
    tablePoly longJumpTable = 0x39109BB02ACBE635_77710069854EE241_C5004E441C522FB3_76E15D3EFEFDCBBF := by
  decide +kernel

theorem polyApply_jumpTable (x : GenState) : polyApply jumpTable x = advance^[2 ^ 128] x := by
  rw [polyApply_eq_polyEval, tablePoly_jumpTable, polyEval_pow_128]

theorem polyApply_longJumpTable (x : GenState) : polyApply longJumpTable x = advance^[2 ^ 192] x := by
  rw [polyApply_eq_polyEval, tablePoly_longJumpTable, polyEval_pow_192]

/-- Settles O21: the tables' polynomials are the powers `2^128` and `2^192` of the update. -/
theorem jumpsAreHugePowersOfTheStep : Obligations.JumpsAreHugePowersOfTheStep :=
  fun x => ⟨polyApply_jumpTable x, polyApply_longJumpTable x⟩

/-- Rule R57 for the table of either operation: a power of the update is a bijection that fixes the zero state. -/
theorem polyApply_tableOf_ne_zero (id : TableId) {x : GenState} (h : x ≠ GenState.zero) :
    polyApply (tableOf id) x ≠ GenState.zero := by
  cases id with
  | jump => exact (polyApply_jumpTable x).trans_ne (iterate_advance_ne_zero _ h)
  | longJump => exact (polyApply_longJumpTable x).trans_ne (iterate_advance_ne_zero _ h)

/-- Settles O22, for both tables. -/
theorem jumpsKeepNonZeroStates : Obligations.JumpsKeepNonZeroStates :=
  fun _ h => ⟨polyApply_tableOf_ne_zero .jump h, polyApply_tableOf_ne_zero .longJump h⟩

/-- Repeating a map that is `n` updates. -/
theorem iterate_of_eq_iterate_advance {f : GenState → GenState} {n : Nat} (h : ∀ x, f x = advance^[n] x) (i : Nat)
    (x : GenState) : f^[i] x = advance^[i * n] x := by
  rw [funext h, Nat.mul_comm, Function.iterate_mul]

/-- Settles O23: each jump is that many updates, so `i` of them are `i` times as many. -/
theorem jumpedEnginesAreApartInOneSequence : Obligations.JumpedEnginesAreApartInOneSequence :=
  fun i x => ⟨iterate_of_eq_iterate_advance polyApply_jumpTable i x,
    iterate_of_eq_iterate_advance polyApply_longJumpTable i x⟩

/-! ## The operations -/

/-- Rules R50 and R51: the words are replaced, and all else stays but the response. -/
theorem completeJump_eq (acc : GenState) (s : State) : completeJump acc s = { s with
    gen := acc
    rsp := some ⟨.ok, 0#64⟩
    activity := .idle } := rfl

theorem exec_jump_of_seeded {s : State} (h : s.seeded = true) :
    exec .jump s = .next (completeJump (polyApply jumpTable s.gen) s) :=
  congrArg _ (whenSeeded_of_seeded h _)

theorem exec_ljump_of_seeded {s : State} (h : s.seeded = true) :
    exec .ljump s = .next (completeJump (polyApply longJumpTable s.gen) s) :=
  congrArg _ (whenSeeded_of_seeded h _)

/-- Settles O20: on a seeded engine a jump completes with its table's `polyApply`; on any other it is the fault of rule
R74. -/
theorem jumpsCompleteWithTheirTables : Obligations.JumpsCompleteWithTheirTables := by
  refine fun s operand => ⟨decode_jump_append operand, decode_ljump_append operand, fun seeded => ⟨?_, ?_⟩,
    fun unseeded i jump => ?_⟩
  · rw [exec_jump_of_seeded seeded, completeJump_eq, jumpTable]
  · rw [exec_ljump_of_seeded seeded, completeJump_eq, longJumpTable]
  · exact unseededCommandsFault i s (by rcases jump with rfl | rfl <;> exact fun _ => nofun) unseeded

end Sys2Proof.Machine
end

section
/-! PROOFS. What the converters answer (43_convert.md sections 2 to 4), and the rounding of NEXTINT's product as the section
writes it, on the rationals. -/

namespace Sys2Proof.Machine

/-! ## NEXTF64 and NEXTF32 -/

/-- Rule R22 item 4: the top 52 bits of a draw, as a number. -/
theorem toNat_fraction52 (r : Word) : (fraction52 r).toNat = (r >>> 12).toNat := by
  rw [fraction52, BitVec.extractLsb'_toNat, BitVec.toNat_ushiftRight]
  have := r.isLt
  omega

/-- Rule R22 item 5: the low half's top 23 bits are bits 31 to 9. -/
theorem fraction23_eq (r : Word) : fraction23 r = r.extractLsb' 9 23 := by
  rw [fraction23, BitVec.extractLsb'_extractLsb'_of_le (by decide)]

theorem exec_nextf64_of_seeded {s : State} (h : s.seeded = true) :
    exec .nextf64 s = .next (respondDraw convertF64 s) :=
  congrArg _ (whenSeeded_of_seeded h _)

theorem exec_nextf32_of_seeded {s : State} (h : s.seeded = true) :
    exec .nextf32 s = .next (respondDraw convertF32 s) :=
  congrArg _ (whenSeeded_of_seeded h _)

/-- Settles O24: the response is `convertF64` of the draw, whose value is its fraction (`f64Value_convertF64`). -/
theorem nextF64AnswersTheFraction : Obligations.NextF64AnswersTheFraction := by
  refine fun s operand => ⟨decode_nextf64_append operand, fun seeded => ⟨convertF64 (drawOf s.gen), ?_, ?_⟩,
    unseededCommandsFault .nextf64 s fun _ => nofun⟩
  · rw [exec_nextf64_of_seeded seeded, respondDraw_eq]
  · rw [f64Value_convertF64, toNat_fraction52]
    rfl

/-- Settles O25: the response is `convertF32` of the draw, a pattern zero-extended (`convertF32_eq`). -/
theorem nextF32AnswersTheFraction : Obligations.NextF32AnswersTheFraction := by
  refine fun s operand => ⟨decode_nextf32_append operand, fun seeded =>
    ⟨bits32 (fraction23 (drawOf s.gen)).toNat, ?_, ?_⟩, unseededCommandsFault .nextf32 s fun _ => nofun⟩
  · rw [exec_nextf32_of_seeded seeded, respondDraw_eq, convertF32_eq]
    rfl
  · rw [f32Value_bits32 (fraction23 _).isLt, fraction23_eq]
    rfl

/-! ## The rounding -/

/-- Rule R64's `round_half_even` of a quotient of naturals. -/
theorem roundHalfEvenRat_div (num : Nat) {den : Nat} (hden : 0 < den) :
    roundHalfEvenRat (num / den : ℚ) = roundHalfEven num den := by
  have floor : ⌊(num / den : ℚ)⌋ = ((num / den : Nat) : ℤ) := by
    rw [Rat.floor_natCast_div_natCast, Int.natCast_div]
  have positive : (0 : ℚ) < den := by exact_mod_cast hden
  have remainder : (num / den : ℚ) - ((num / den : Nat) : ℤ) = (num % den : Nat) / den := by
    have parts : (den * (num / den : Nat) + (num % den : Nat) : ℚ) = num := by exact_mod_cast Nat.div_add_mod num den
    rw [Int.cast_natCast, eq_div_iff positive.ne', sub_mul, div_mul_cancel₀ _ positive.ne']
    linarith
  have below : ((num % den : Nat) / den : ℚ) < 1 / 2 ↔ 2 * (num % den) < den := by
    rw [div_lt_div_iff₀ positive two_pos]
    norm_cast
    omega
  have above : (1 / 2 : ℚ) < (num % den : Nat) / den ↔ den < 2 * (num % den) := by
    rw [div_lt_div_iff₀ two_pos positive]
    norm_cast
    omega
  have even : ((num / den : Nat) : ℤ) % 2 = 0 ↔ num / den % 2 = 0 := by omega
  simp only [roundHalfEvenRat, roundHalfEven, floor, remainder, below, above, even]
  split_ifs <;> simp

theorem roundHalfEven_one (n : Nat) : roundHalfEven n 1 = n := by
  simp [roundHalfEven, Nat.mod_one]

/-- A power of 2 in units of `2^-52`. -/
theorem two_zpow_sub_52 (z : ℤ) : (2 : ℚ) ^ (z - 52) = 2 ^ z / 2 ^ 52 := by
  rw [zpow_sub₀ two_ne_zero]
  norm_cast

theorem units_pos {n : Nat} (hn : n ≠ 0) : (0 : ℚ) < n / 2 ^ 52 := by
  have positive : (0 : ℚ) < n := by exact_mod_cast Nat.pos_of_ne_zero hn
  positivity

/-- Rule R64: the exponent of a multiple of `2^-52`. -/
theorem intLog_units {n : Nat} (hn : n ≠ 0) : Int.log 2 (n / 2 ^ 52 : ℚ) = (n.log2 : ℤ) - 52 := by
  have low : (2 : ℚ) ^ (n.log2 : ℤ) ≤ n := by exact_mod_cast Nat.log2_self_le hn
  have high : (n : ℚ) < 2 ^ ((n.log2 : ℤ) + 1) := by exact_mod_cast Nat.lt_log2_self
  apply le_antisymm
  · have below := (Int.lt_zpow_iff_log_lt (b := 2) one_lt_two (x := (n.log2 : ℤ) + 1 - 52) (units_pos hn)).1
      (by rw [Nat.cast_ofNat, two_zpow_sub_52]; gcongr)
    omega
  · exact (Int.zpow_le_iff_le_log (b := 2) one_lt_two (units_pos hn)).1
      (by rw [Nat.cast_ofNat, two_zpow_sub_52]; gcongr)

/-- Rule R64 on a multiple of `2^-52`, with its unit in the same terms. -/
theorem rne64Rat_units {n : Nat} (hn : n ≠ 0) : rne64Rat (n / 2 ^ 52 : ℚ) =
    2 ^ ((n.log2 : ℤ) - 52) * roundHalfEvenRat (n / 2 ^ ((n.log2 : ℤ) - 52)) / 2 ^ 52 := by
  rw [rne64Rat, if_neg (units_pos hn).ne', intLog_units hn, two_zpow_sub_52 ((n.log2 : ℤ) - 52),
    div_div_div_cancel_right₀ (by norm_num), mul_div_right_comm]

/-- Settles O26: from a highest bit at place 52 on the unit is a natural number, and the roundings are the same one
(`roundHalfEvenRat_div`); below it the unit divides the value, and neither rounds. -/
theorem roundingAgreesWithItsRationalForm : Obligations.RoundingAgreesWithItsRationalForm := by
  intro n
  by_cases zero : n = 0
  · simp [zero, rne64, rne64Rat, roundHalfEven]
  rw [rne64Rat_units zero, rne64]
  congr 1
  rcases Nat.le_total 52 n.log2 with wide | narrow
  · have unit : (2 : ℚ) ^ ((n.log2 : ℤ) - 52) = (2 ^ (n.log2 - 52) : Nat) := by
      rw [← Nat.cast_ofNat (n := 52), ← Nat.cast_sub wide]
      norm_cast
    rw [unit, roundHalfEvenRat_div n (Nat.two_pow_pos _), Nat.cast_mul, Int.cast_natCast, mul_comm]
  · have unit : (2 : ℚ) ^ ((n.log2 : ℤ) - 52) = 1 / (2 ^ (52 - n.log2) : Nat) := by
      rw [← neg_sub, ← Nat.cast_ofNat (n := 52), ← Nat.cast_sub narrow, zpow_neg, one_div]
      norm_cast
    have whole : (n / (1 / (2 ^ (52 - n.log2) : Nat)) : ℚ) = (n * 2 ^ (52 - n.log2) : Nat) / (1 : Nat) := by
      rw [one_div, div_inv_eq_mul, Nat.cast_mul, Nat.cast_one, div_one]
    rw [unit, whole, roundHalfEvenRat_div _ one_pos, roundHalfEven_one, Nat.sub_eq_zero_of_le narrow, Nat.pow_zero,
      roundHalfEven_one, Nat.mul_one, Int.cast_natCast, Nat.cast_mul, one_div, mul_comm, mul_inv_cancel_right₀]
    positivity

/-! ## NEXTINT -/

/-- Rule R64: `floor(P)` of the rounded product. -/
theorem scaledDraw_eq_floor (d : Nat) (r : Word) :
    (scaledDraw d r : ℤ) = ⌊rne64Rat (d * (r >>> 12).toNat / 2 ^ 52)⌋ := by
  have product : (d * (r >>> 12).toNat / 2 ^ 52 : ℚ) = (d * (fraction52 r).toNat : Nat) / 2 ^ 52 := by
    rw [toNat_fraction52, Nat.cast_mul]
  have floor (n : Nat) : ⌊(n / 2 ^ 52 : ℚ)⌋ = ((n / 2 ^ 52 : Nat) : ℤ) := by
    have units : (2 ^ 52 : ℚ) = (2 ^ 52 : Nat) := by norm_cast
    rw [units, Rat.floor_natCast_div_natCast, Int.natCast_div]
  rw [product, ← roundingAgreesWithItsRationalForm, floor, scaledDraw]

theorem exec_nextint_of_seeded {s : State} {a b : Int} (h : s.seeded = true) (hab : a < b) :
    exec (.nextint a b) s = .next (respondDraw (convertInt a b) s) :=
  congrArg _ ((whenSeeded_of_seeded h _).trans (if_neg (not_le.2 hab)))

/-- Settles O27: the response is the pattern of `intResult`, which is in range (`intResult_mem`) and so fits, and whose
offset is the floor of the rounded product (`scaledDraw_eq_floor`). -/
theorem nextIntAnswersInRange : Obligations.NextIntAnswersInRange := by
  refine fun s a b ha hb => ⟨decode_nextint_bounds ha hb, fun seeded hab =>
    ⟨patternI32 (intResult a b (drawOf s.gen)), ?_, ?_⟩, fun seeded bad => ?_,
    unseededCommandsFault (.nextint a b) s fun _ => nofun⟩
  · rw [exec_nextint_of_seeded seeded hab, respondDraw_eq]
    rfl
  · obtain ⟨low, high⟩ := intResult_mem ha hb hab (drawOf s.gen)
    have fits : inI32 (intResult a b (drawOf s.gen)) := ⟨ha.1.trans low, high.le.trans hb.2⟩
    have difference : ((b - a : Int) : ℚ) = ((b - a).toNat : ℚ) := by
      exact_mod_cast (Int.toNat_of_nonneg (sub_nonneg.2 hab.le)).symm
    rw [toInt_patternI32 fits, intResult, scaledDraw_eq_floor, difference]
    rfl
  · rw [badRangeFaults a b s bad, seeded]
    rfl

end Sys2Proof.Machine
end

section
/-! PROOFS. What one step does to each part of the state, whoever moves (10_state.md sections 2 and 3,
70_reset_and_hazards.md sections 1, 3 and 5): the frame of an engine's move, the writers of SEEDED and of the words, reset,
acceptance, and the response that waits. -/

namespace Sys2Proof.Machine

/-! ## Small steps, case by case -/

theorem seedSmallStep_of_lt {i : Nat} (h : i < 4) (z : Word) (s : State) : seedSmallStep z i s =
    (s.setGen (seedIter i (z, s.gen)).2).setActivity (.seedLoop (seedIter i (z, s.gen)).1 (i + 1)) :=
  if_pos h

theorem seedSmallStep_of_le {i : Nat} (h : 4 ≤ i) (z : Word) (s : State) : seedSmallStep z i s = completeSeed s :=
  if_neg (Nat.not_lt.2 h)

theorem jumpSmallStep_of_lt {j : Nat} (h : j < 256) (t : TableId) (acc : GenState) (s : State) :
    jumpSmallStep t acc j s = (s.setGen (jumpIter (tableBit (tableOf t) j) ⟨acc, s.gen⟩).live).setActivity
      (.jumpLoop t (jumpIter (tableBit (tableOf t) j) ⟨acc, s.gen⟩).acc (j + 1)) :=
  if_pos h

theorem jumpSmallStep_of_le {j : Nat} (h : 256 ≤ j) (t : TableId) (acc : GenState) (s : State) :
    jumpSmallStep t acc j s = completeJump acc s :=
  if_neg (Nat.not_lt.2 h)

/-- Rule R87: a small step leaves the host's side alone. -/
theorem seedSmallStep_sameHostSide (z : Word) (i : Nat) (s : State) : s.sameHostSide (seedSmallStep z i s) := by
  rcases Nat.lt_or_ge i 4 with before | done
  · rw [seedSmallStep_of_lt before]; exact ⟨rfl, rfl, rfl, rfl, rfl⟩
  · rw [seedSmallStep_of_le done]; exact ⟨rfl, rfl, rfl, rfl, rfl⟩

theorem jumpSmallStep_sameHostSide (t : TableId) (acc : GenState) (j : Nat) (s : State) :
    s.sameHostSide (jumpSmallStep t acc j s) := by
  rcases Nat.lt_or_ge j 256 with before | done
  · rw [jumpSmallStep_of_lt before]; exact ⟨rfl, rfl, rfl, rfl, rfl⟩
  · rw [jumpSmallStep_of_le done]; exact ⟨rfl, rfl, rfl, rfl, rfl⟩

/-- Rule R13: a jump's small steps leave SEEDED alone. -/
@[simp] theorem jumpSmallStep_seeded (t : TableId) (acc : GenState) (j : Nat) (s : State) :
    (jumpSmallStep t acc j s).seeded = s.seeded := by
  rcases Nat.lt_or_ge j 256 with before | done
  · rw [jumpSmallStep_of_lt before]; rfl
  · rw [jumpSmallStep_of_le done]; rfl

/-- A small step goes on with the loop or ends the operation; it accepts nothing. -/
theorem seedSmallStep_not_accepted (z : Word) (i : Nat) (s : State) (cw : CmdWord) :
    (seedSmallStep z i s).activity ≠ .accepted cw := by
  rcases Nat.lt_or_ge i 4 with before | done
  · rw [seedSmallStep_of_lt before]; exact nofun
  · rw [seedSmallStep_of_le done]; exact nofun

theorem jumpSmallStep_not_accepted (t : TableId) (acc : GenState) (j : Nat) (s : State) (cw : CmdWord) :
    (jumpSmallStep t acc j s).activity ≠ .accepted cw := by
  rcases Nat.lt_or_ge j 256 with before | done
  · rw [jumpSmallStep_of_lt before]; exact nofun
  · rw [jumpSmallStep_of_le done]; exact nofun

/-! ## Instructions and command words -/

/-- Settles O34: an instruction faults or completes (`exec_of_fault`, `exec_of_no_fault`), and only SEED completes on an
unseeded engine. -/
theorem everyInstructionAnswersOnce : Obligations.EveryInstructionAnswersOnce := by
  intro i s
  cases fault : faultOf i s.seeded with
  | some c => exact ⟨_, _, exec_of_fault fault, rfl, rfl, ⟨rfl, rfl, rfl, rfl, rfl⟩, .inl rfl, .inl rfl⟩
  | none =>
    have seeded : s.seeded = true ∨ ∃ v, i = .seed v := faultOf_eq_none fault
    exact ⟨_, _, exec_of_no_fault fault, rfl, rfl, ⟨rfl, rfl, rfl, rfl, rfl⟩, .inr rfl, seeded.imp_left Eq.symm⟩

theorem runCommand_sameHostSide {cw : CmdWord} {s t : State} (h : runCommand cw s = .next t) : s.sameHostSide t := by
  obtain ⟨t', r, answer, -, -, side, -⟩ := runCommand_next cw s
  cases answer.symm.trans h
  exact side

theorem runCommand_activity {cw : CmdWord} {s t : State} (h : runCommand cw s = .next t) : t.activity = .idle := by
  obtain ⟨t', r, answer, -, idle, -⟩ := runCommand_next cw s
  cases answer.symm.trans h
  exact idle

/-- All that a command can do to SEEDED: only a completed SEED changes it. -/
theorem runCommand_seeded {cw : CmdWord} {s t : State} (h : runCommand cw s = .next t) :
    t.seeded = s.seeded ∨ (t.seeded = true ∧ ∃ v, decode cw = .ok (.seed v)) := by
  obtain ⟨t', r, answer, -, -, -, -, -, outcome⟩ := runCommand_next cw s
  cases answer.symm.trans h
  rcases outcome with ⟨i, decoded, rfl, seeded | ⟨v, rfl⟩, -⟩ | ⟨c, -, rfl, -⟩
  · exact .inl seeded.symm
  · exact .inr ⟨rfl, v, decoded⟩
  · exact .inl rfl

/-! ## A move of the engine -/

/-- A move of the engine leaves the host's plans, its record and `rst` alone. -/
theorem EngineStep.frame {s t : State} (h : EngineStep s t) :
    t.rst = s.rst ∧ t.sched = s.sched ∧ t.taken = s.taken := by
  have sides {u : State} (side : s.sameHostSide u) : u.rst = s.rst ∧ u.sched = s.sched ∧ u.taken = s.taken :=
    ⟨side.1, side.2.2.1, side.2.2.2.1⟩
  cases h with
  | run cw _ _ _ answer => exact sides (runCommand_sameHostSide answer)
  | seedIteration z i => exact sides (seedSmallStep_sameHostSide z i s)
  | jumpIteration tb acc j => exact sides (jumpSmallStep_sameHostSide tb acc j s)
  | inReset => exact ⟨rfl, rfl, rfl⟩
  | notAccepted => exact ⟨rfl, rfl, rfl⟩
  | accept => exact ⟨rfl, rfl, rfl⟩
  | beginSeed => exact ⟨rfl, rfl, rfl⟩
  | beginJump => exact ⟨rfl, rfl, rfl⟩

/-- Rule R82: the engine takes a word off the port only when it is ready. -/
theorem EngineStep.cmd {s t : State} (h : EngineStep s t) : t.cmd = s.cmd ∨ s.cmdReady = true := by
  cases h with
  | accept cw _ ready => exact .inr ready
  | run cw _ _ _ answer => exact .inl (runCommand_sameHostSide answer).2.1
  | seedIteration z i => exact .inl (seedSmallStep_sameHostSide z i s).2.1
  | jumpIteration tb acc j => exact .inl (jumpSmallStep_sameHostSide tb acc j s).2.1
  | inReset => exact .inl rfl
  | notAccepted => exact .inl rfl
  | beginSeed => exact .inl rfl
  | beginJump => exact .inl rfl

/-- Rule R82: a word becomes the command in progress only from the port of an engine that is ready. -/
theorem EngineStep.accepted {s t : State} {cw : CmdWord} (h : EngineStep s t) (now : t.activity = .accepted cw) :
    s.activity = .accepted cw ∨ (s.cmd = some cw ∧ s.cmdReady = true) := by
  cases h with
  | accept cw' offered ready => cases now; exact .inr ⟨offered, ready⟩
  | run cw' _ _ _ answer => cases (runCommand_activity answer).symm.trans now
  | seedIteration z i => exact absurd now (seedSmallStep_not_accepted z i s cw)
  | jumpIteration tb acc j => exact absurd now (jumpSmallStep_not_accepted tb acc j s cw)
  | inReset => exact .inl now
  | notAccepted => exact .inl now
  | beginSeed => cases now
  | beginJump => cases now

/-- The end of a SEED, whole or in small steps, is what the engine does next. -/
def State.endsSeed (s : State) : Prop :=
  s.rst = false ∧ ((∃ cw v, s.activity = .accepted cw ∧ decode cw = .ok (.seed v)) ∨
    (∃ z i, s.activity = .seedLoop z i ∧ 4 ≤ i))

/-- Rule R13: all that a move of the engine can do to SEEDED. -/
theorem EngineStep.seeded {s t : State} (h : EngineStep s t) :
    t.seeded = s.seeded ∨ (t.seeded = true ∧ s.endsSeed) := by
  cases h with
  | run cw _ released accepted answer =>
    rcases runCommand_seeded answer with same | ⟨set, v, decoded⟩
    · exact .inl same
    · exact .inr ⟨set, released, .inl ⟨cw, v, accepted, decoded⟩⟩
  | seedIteration z i released looping =>
    rcases Nat.lt_or_ge i 4 with before | done
    · rw [seedSmallStep_of_lt before]; exact .inl rfl
    · rw [seedSmallStep_of_le done]; exact .inr ⟨rfl, released, .inr ⟨z, i, looping, done⟩⟩
  | jumpIteration tb acc j => exact .inl (jumpSmallStep_seeded tb acc j s)
  | inReset => exact .inl rfl
  | notAccepted => exact .inl rfl
  | accept => exact .inl rfl
  | beginSeed => exact .inl rfl
  | beginJump => exact .inl rfl

/-- Rule R11: a move of the engine changes the words only by an operation in progress. -/
theorem EngineStep.gen {s t : State} (h : EngineStep s t) :
    t.gen = s.gen ∨ (s.rst = false ∧ s.activity ≠ .idle) := by
  cases h with
  | run cw _ released accepted => exact .inr ⟨released, by simp [accepted]⟩
  | seedIteration z i released looping => exact .inr ⟨released, by simp [looping]⟩
  | jumpIteration tb acc j released looping => exact .inr ⟨released, by simp [looping]⟩
  | inReset => exact .inl rfl
  | notAccepted => exact .inl rfl
  | accept => exact .inl rfl
  | beginSeed => exact .inl rfl
  | beginJump => exact .inl rfl

/-- Rules R82 and R83: an engine without an operation does nothing while a response waits. -/
theorem EngineStep.eq_of_waiting {s t : State} {r : Response} (h : EngineStep s t) (idle : s.activity = .idle)
    (waits : s.rsp = some r) : t = s := by
  cases h with
  | inReset => rfl
  | notAccepted => rfl
  | accept cw _ ready => simp [((cmdReady_iff s).1 ready).2.2] at waits
  | run cw _ _ accepted => cases idle.symm.trans accepted
  | beginSeed cw v _ accepted => cases idle.symm.trans accepted
  | beginJump cw tb _ accepted => cases idle.symm.trans accepted
  | seedIteration z i _ looping => cases idle.symm.trans looping
  | jumpIteration tb acc j _ looping => cases idle.symm.trans looping

/-! ## A step -/

/-- All that a step can do to SEEDED: a reset clears it, the end of a SEED sets it, and anything else leaves it. -/
theorem step_seeded {s t : State} (h : step s = .next t) :
    (s.nextMove = .assertRst ∧ t.seeded = false) ∨ t.seeded = s.seeded ∨ (t.seeded = true ∧ s.endsSeed) := by
  cases step_cases h with
  | engine _ _ move => exact .inr move.seeded
  | assertRst hm => exact .inl ⟨hm, rfl⟩
  | releaseRst => exact .inr (.inl rfl)
  | offer => exact .inr (.inl rfl)
  | withdraw => exact .inr (.inl rfl)
  | take => exact .inr (.inl rfl)
  | takeNothing => exact .inr (.inl rfl)

/-- Settles O35: `step_seeded` gives what sets SEEDED and what clears it. -/
theorem seededChangesOnlyBySeedAndReset : Obligations.SeededChangesOnlyBySeedAndReset := by
  refine ⟨assertReset_seeded, fun v s t h => ?_, fun s t h => ?_⟩
  · cases (exec_seed_eq v s).symm.trans h
    rfl
  · rcases step_seeded h with ⟨hm, cleared⟩ | same | ⟨set, seed⟩
    · exact ⟨by simp [cleared], fun _ _ => hm⟩
    · exact ⟨by simp +contextual [same], by simp +contextual [same]⟩
    · exact ⟨fun _ _ => seed, by simp [set]⟩

/-- Settles O37: the words change by a move of the engine (`EngineStep.gen`) or a reset, and the host's other moves write
its own side alone. -/
theorem onlyOperationsWriteTheWords : Obligations.OnlyOperationsWriteTheWords := by
  intro s t h
  cases step_cases h with
  | engine _ hm move =>
    refine ⟨fun changed => .inr ⟨hm, move.gen.resolve_left changed⟩, fun host => ?_⟩
    rcases hm with hm | hm <;> simp [hm] at host
  | assertRst hm => exact ⟨fun _ => .inl hm, fun host => by simp [hm] at host⟩
  | releaseRst => exact ⟨fun changed => absurd rfl changed, fun _ => ⟨rfl, rfl, rfl, rfl⟩⟩
  | offer => exact ⟨fun changed => absurd rfl changed, fun _ => ⟨rfl, rfl, rfl, rfl⟩⟩
  | withdraw => exact ⟨fun changed => absurd rfl changed, fun _ => ⟨rfl, rfl, rfl, rfl⟩⟩
  | take => exact ⟨fun changed => absurd rfl changed, fun _ => ⟨rfl, rfl, rfl, rfl⟩⟩
  | takeNothing => exact ⟨fun changed => absurd rfl changed, fun _ => ⟨rfl, rfl, rfl, rfl⟩⟩

/-- The step when the next move is known. -/
theorem step_of_nextMove {s : State} {m : Move} (h : s.nextMove = m) : step s = runMove m s.popMove := by
  rw [step_eq, h]

/-- The step when the next move is the engine's. -/
theorem step_of_engine {s : State} (h : s.nextMove = .engine ∨ s.nextMove = .engineSmall) :
    ∃ perform, step s = engineMove perform s.popMove :=
  h.elim (⟨_, step_of_nextMove ·⟩) (⟨_, step_of_nextMove ·⟩)

/-- What the engine's move answers: performing a command word always answers (`runCommand_next`, `beginCommand_next`), and
so does every other case. -/
theorem engineMove_next {perform : CmdWord → State → Host.Outcome State Fault Refusal}
    (answers : ∀ cw s, ∃ t, perform cw s = .next t) (s : State) : ∃ t, engineMove perform s = .next t := by
  rcases engineMove_cases perform s with ⟨-, h⟩ | ⟨-, -, h⟩ | ⟨cw, -, -, h⟩ | ⟨z, i, -, -, h⟩ | ⟨tb, acc, j, -, -, h⟩
  · exact ⟨_, h⟩
  · exact ⟨_, h⟩
  · exact h ▸ answers cw s
  · exact ⟨_, h⟩
  · exact ⟨_, h⟩

theorem runCommand_answers (cw : CmdWord) (s : State) : ∃ t, runCommand cw s = .next t :=
  let ⟨t, _, answer, _⟩ := runCommand_next cw s
  ⟨t, answer⟩

theorem beginCommand_answers (cw : CmdWord) (s : State) : ∃ t, beginCommand cw s = .next t := by
  rcases beginCommand_next cw s with ⟨v, -, h⟩ | ⟨tb, -, h⟩ | h
  · exact ⟨_, h⟩
  · exact ⟨_, h⟩
  · exact h ▸ runCommand_answers cw s

/-- Settles O47: the engine's two moves answer (`engineMove_next`), and the host's are next states as they stand. -/
theorem everyStepGoesOn : Obligations.EveryStepGoesOn := by
  intro s
  rw [step_eq]
  cases s.nextMove with
  | engine => exact engineMove_next runCommand_answers _
  | engineSmall => exact engineMove_next beginCommand_answers _
  | assertRst => exact ⟨_, rfl⟩
  | releaseRst => exact ⟨_, rfl⟩
  | offer cw => exact ⟨_, rfl⟩
  | withdraw => exact ⟨_, rfl⟩
  | take => exact ⟨_, rfl⟩

/-! ## Reset -/

/-- Settles O38. -/
theorem resetLeavesStatusClearAndIdle : Obligations.ResetLeavesStatusClearAndIdle :=
  ⟨rfl, rfl, rfl, rfl, rfl, rfl⟩

/-- Settles O39: the step is `assertReset`, whatever the engine was doing. -/
theorem resetAbandonsTheOperation : Obligations.ResetAbandonsTheOperation :=
  fun _ hm => ⟨_, step_of_nextMove hm, rfl, rfl, rfl, rfl, rfl, rfl, rfl, rfl⟩

/-- Rule R80: in reset the engine does nothing, however it performs commands. -/
theorem engineMove_inReset {perform : CmdWord → State → Host.Outcome State Fault Refusal} {s : State}
    (h : s.rst = true) : engineMove perform s = .next s :=
  if_pos h

/-- Settles O40. -/
theorem nothingHappensInReset : Obligations.NothingHappensInReset := by
  intro s inReset hm
  obtain ⟨perform, move⟩ := step_of_engine hm
  exact ⟨move.trans (engineMove_inReset inReset), by simp [State.cmdReady, inReset]⟩

/-! ## Performing the command in progress -/

/-- Rule R82: the commands without small steps are begun as they are performed. -/
theorem beginCommand_eq_runCommand {cw : CmdWord} {i : Instr} (decoded : decode cw = .ok i) (notSeed : ∀ v, i ≠ .seed v)
    (notJump : i ≠ .jump) (notLjump : i ≠ .ljump) (s : State) : beginCommand cw s = runCommand cw s := by
  rcases beginCommand_cases cw with ⟨v, h, -⟩ | ⟨tb, i', h, jump, -⟩ | h
  · cases h.symm.trans decoded
    exact absurd rfl (notSeed v)
  · cases h.symm.trans decoded
    exact (jump.elim notJump notLjump).elim
  · exact h s

/-- Settles O41: the whole move is `runCommand`, and the small one is too (`beginCommand_eq_runCommand`). -/
theorem stepPerformsTheAcceptedInstruction : Obligations.StepPerformsTheAcceptedInstruction := by
  intro s cw i released accepted decoded move
  rcases move with whole | ⟨small, notSeed, notJump, notLjump⟩
  · rw [step_of_nextMove whole]
    exact (engineMove_accepted (s := s.popMove) released accepted).trans (runCommand_of_ok decoded _)
  · rw [step_of_nextMove small]
    exact (engineMove_accepted (s := s.popMove) released accepted).trans
      ((beginCommand_eq_runCommand decoded notSeed notJump notLjump _).trans (runCommand_of_ok decoded _))

theorem decode_of_decodeTableWord {nbits w : Nat} {i : Instr} (h : decodeTableWord nbits w = some i) :
    decode (cmdWordOfTable nbits w) = .ok i := by
  unfold decodeTableWord at h
  split at h
  case h_1 decoded => cases h; exact decoded
  case h_2 => cases h

/-- Settles O42: the placed word is the command in progress and the engine's whole move comes next (`step_accepted`). -/
theorem placedWordIsPerformedNext : Obligations.PlacedWordIsPerformedNext := fun s nbits w _ placed =>
  (step_accepted (s := s.withFetchWord nbits w) rfl rfl rfl).trans (runCommand_of_ok (decode_of_decodeTableWord placed) _)

/-! ## The hand-over of commands and responses -/

theorem acceptCommand_of_ready {s : State} {cw : CmdWord} (offered : s.cmd = some cw) (ready : s.cmdReady = true) :
    acceptCommand s = { s with cmd := none, activity := .accepted cw } := by
  simp only [acceptCommand, offered, ready, if_true]

/-- Rule R82: a step makes a word the command in progress only from the port of an engine that is ready. -/
theorem step_accepts {s t : State} {cw : CmdWord} (h : step s = .next t) (now : t.activity = .accepted cw)
    (before : s.activity ≠ .accepted cw) : s.cmd = some cw ∧ s.cmdReady = true := by
  cases step_cases h with
  | engine _ _ move => exact (move.accepted now).resolve_left before
  | assertRst => cases now
  | releaseRst => exact absurd now before
  | offer => exact absurd now before
  | withdraw => exact absurd now before
  | take => exact absurd now before
  | takeNothing => exact absurd now before

/-- Settles O43: `step_accepts`, `acceptCommand_of_ready`, and `EngineStep.cmd` for the word that stays. -/
theorem commandsAreAcceptedOnlyWhenReady : Obligations.CommandsAreAcceptedOnlyWhenReady := by
  refine ⟨fun s t cw h now before => ?_, fun s cw hm offered idle noResponse released => ?_,
    fun s t cw hm offered busy h => ?_⟩
  · obtain ⟨offered, ready⟩ := step_accepts h now before
    obtain ⟨released, idle, noResponse⟩ := (cmdReady_iff s).1 ready
    exact ⟨offered, idle, noResponse, released⟩
  · obtain ⟨perform, move⟩ := step_of_engine hm
    have ready : s.popMove.cmdReady = true := (cmdReady_iff _).2 ⟨released, idle, noResponse⟩
    rw [move, engineMove_idle (s := s.popMove) released idle, acceptCommand_of_ready (s := s.popMove) offered ready]
    rfl
  · cases step_cases h with
    | engine _ _ move =>
      have stays : t.cmd = s.cmd := move.cmd.resolve_right (by simp [show s.popMove.cmdReady = false from busy])
      exact stays.trans offered
    | assertRst hm' => simp [hm'] at hm
    | releaseRst hm' => simp [hm'] at hm
    | offer cw' hm' => simp [hm'] at hm
    | withdraw hm' => simp [hm'] at hm
    | take r hm' => simp [hm'] at hm
    | takeNothing hm' => simp [hm'] at hm

/-- Settles O44: in order, a response waits only on an idle engine, whose moves then do nothing
(`EngineStep.eq_of_waiting`). -/
theorem responsesAreNeitherLostNorRepeated : Obligations.ResponsesAreNeitherLostNorRepeated := by
  intro s t r inOrder waits h
  obtain ⟨noResponse, -⟩ := inOrder
  have idle : s.activity = .idle := by
    by_contra busy
    cases (noResponse busy).symm.trans waits
  cases step_cases h with
  | engine _ hm move =>
    rw [move.eq_of_waiting idle waits]
    exact .inl ⟨waits, rfl, by rcases hm with hm | hm <;> simp [hm], by rcases hm with hm | hm <;> simp [hm]⟩
  | assertRst hm => exact .inr (.inr ⟨rfl, rfl, hm⟩)
  | releaseRst hm => exact .inl ⟨waits, rfl, by simp [hm], by simp [hm]⟩
  | offer cw hm => exact .inl ⟨waits, rfl, by simp [hm], by simp [hm]⟩
  | withdraw hm => exact .inl ⟨waits, rfl, by simp [hm], by simp [hm]⟩
  | take r' hm waits' =>
    cases waits'.symm.trans waits
    exact .inr (.inl ⟨rfl, rfl, hm⟩)
  | takeNothing hm none => cases none.symm.trans waits

end Sys2Proof.Machine
end

section
/-! PROOFS. Programs (20_memory.md section 4, 70_reset_and_hazards.md section 5): one command from its offer to the taking of
its response, and by induction a whole program and its run (rules R25, R83, R88). -/

namespace Sys2Proof.Machine

/-! ## One command -/

/-- The response that waits is taken (rule R83). -/
theorem takeResponse_of_waiting {s : State} {r : Response} (h : s.rsp = some r) :
    takeResponse s = { s with rsp := none, taken := s.taken ++ [r] } := by
  simp only [takeResponse, h]

/-- The four moves of a command, issued to an engine at rest, perform its word on the state without them and take the
response. -/
theorem runSteps_command {s : State} {cw : CmdWord} {moves : List Move} (atRest : s.atRest)
    (sched : s.sched = .offer cw :: .engine :: .engine :: .take :: moves) :
    ∃ t, runCommand cw { s with sched := moves } = .next t ∧ ∀ n, runSteps (n + 4) s = runSteps n (takeResponse t) := by
  obtain ⟨idle, noResponse, released, noOffer⟩ := atRest
  obtain ⟨t, answer⟩ := runCommand_answers cw { s with sched := .take :: moves, activity := .accepted cw }
  have planned : t.sched = .take :: moves := (runCommand_sameHostSide answer).2.2.1
  have offer : step s = .next { s with sched := .engine :: .engine :: .take :: moves, cmd := some cw } :=
    step_of_sched sched
  have accept : step { s with sched := .engine :: .engine :: .take :: moves, cmd := some cw } =
      .next { s with sched := .engine :: .take :: moves, activity := .accepted cw } := by
    rw [commandsAreAcceptedOnlyWhenReady.2.1 { s with sched := _, cmd := _ } cw (.inl rfl) rfl idle noResponse released,
      ← noOffer]
    rfl
  have perform : step { s with sched := .engine :: .take :: moves, activity := .accepted cw } = .next t :=
    (step_accepted (s := { s with sched := _, activity := _ }) rfl released rfl).trans answer
  have take : step t = .next (takeResponse { t with sched := moves }) := step_of_sched planned
  refine ⟨_, runCommand_sched_activity cw { s with sched := moves } t (.accepted cw) (.take :: moves) answer, fun n => ?_⟩
  rw [runSteps_succ _ offer, runSteps_succ _ accept, runSteps_succ _ perform, runSteps_succ _ take]

/-- What a command and the taking of its response leave of an engine at rest: it is at rest again, the response is on
record, and ERR is set if it was or the response is a fault (rules R71, R83). -/
theorem takeResponse_runCommand {cw : CmdWord} {s t : State} (atRest : s.atRest) (h : runCommand cw s = .next t) :
    ∃ r, (takeResponse t).atRest ∧ (takeResponse t).sched = s.sched ∧ (takeResponse t).taken = s.taken ++ [r] ∧
      ((takeResponse t).err = true ↔ s.err = true ∨ r.code ≠ .ok) := by
  obtain ⟨idle, noResponse, released, noOffer⟩ := atRest
  obtain ⟨t', r, answer, waits, idle', ⟨rst, cmd, sched, taken, -⟩, kept, set, -⟩ := runCommand_next cw s
  cases answer.symm.trans h
  rw [takeResponse_of_waiting waits]
  refine ⟨r, ⟨idle', rfl, rst.trans released, cmd.trans noOffer⟩, sched, congrArg (· ++ [r]) taken, ?_⟩
  show t.err = true ↔ _
  by_cases ok : r.code = .ok
  · simp [kept ok, ok]
  · simp [(set ok).1, ok]

/-- Taking a response looks at no plans. -/
theorem takeResponse_sched (s : State) (moves : List Move) :
    takeResponse { s with sched := moves } = { takeResponse s with sched := moves } := by
  cases h : s.rsp <;> simp only [takeResponse, h]

/-! ## A program and its run -/

/-- Settles O45: by induction on the program, one command at a time (`runSteps_command`, `takeResponse_runCommand`). -/
theorem commandSequencesAreAnsweredInOrder : Obligations.CommandSequencesAreAnsweredInOrder := by
  intro program
  induction program with
  | nil =>
    intro s rest atRest sched
    have same : s = { s with sched := rest } := by rw [← show s.sched = rest from sched]
    exact ⟨s, [], rfl, congrArg _ same.symm, atRest, sched, rfl, by simp, by simp⟩
  | cons cw program ih =>
    intro s rest atRest sched
    obtain ⟨u, first, run⟩ := runSteps_command atRest sched
    obtain ⟨r, atRest', sched', taken', err'⟩ := takeResponse_runCommand
      (s := { s with sched := programMoves program ++ rest }) atRest first
    obtain ⟨t, rs, runRest, performRest, atRest'', sched'', count, taken'', err''⟩ := ih _ rest atRest' sched'
    refine ⟨t, r :: rs, (run _).trans runRest, ?_, atRest'', sched'', by simp [count], ?_, ?_⟩
    · have performed := runCommand_sched_activity cw { s with sched := rest } u s.activity _ first
      rw [performInOrder_cons program performed, takeResponse_sched]
      exact performRest
    · rw [taken'', taken', List.append_assoc, List.singleton_append]
    · rw [err'', err', List.exists_mem_cons_iff, or_assoc]

/-- Rule R36: the code's bits are 0 for OK alone. -/
theorem code_bits_eq_zero_iff (c : Code) : c.bits = 0#4 ↔ c = .ok := by
  cases c <;> decide

/-- The three moves that begin a run: a reset, the withdrawal of a stale offer, and the release of `rst`. -/
theorem runSteps_reset {s : State} {moves : List Move} (sched : s.sched = .assertRst :: .withdraw :: .releaseRst :: moves)
    (n : Nat) : runSteps (n + 3) s =
      runSteps n (releaseReset (withdrawCommand (assertReset { s with sched := moves }))) := by
  have reset : step s = .next (assertReset { s with sched := .withdraw :: .releaseRst :: moves }) := step_of_sched sched
  have withdraw : step (assertReset { s with sched := .withdraw :: .releaseRst :: moves }) =
      .next (withdrawCommand (assertReset { s with sched := .releaseRst :: moves })) := rfl
  have release : step (withdrawCommand (assertReset { s with sched := .releaseRst :: moves })) =
      .next (releaseReset (withdrawCommand (assertReset { s with sched := moves }))) := rfl
  rw [runSteps_succ _ reset, runSteps_succ _ withdraw, runSteps_succ _ release]

/-- Settles O46: after the reset, the withdrawal and the release the engine is at rest with an empty record, and the
program runs (`commandSequencesAreAnsweredInOrder`). -/
theorem programsLeaveTheirResult : Obligations.ProgramsLeaveTheirResult := by
  intro program s sched
  obtain ⟨t, rs, run, performed, atRest, noMoves, count, taken, err⟩ := commandSequencesAreAnsweredInOrder program
    (releaseReset (withdrawCommand (assertReset { s with sched := programMoves program }))) [] ⟨rfl, rfl, rfl, rfl⟩
    (List.append_nil _).symm
  have record : t.taken = rs := taken
  have refused : t.err = true ↔ ∃ r ∈ rs, r.code ≠ .ok := err.trans (or_iff_right nofun)
  refine ⟨t, ?_, (runOver_iff t).2 ⟨noMoves, atRest⟩, performed, by simp [State.runResult, record, count], ?_⟩
  · rw [Nat.add_comm, runSteps_reset (moves := programMoves program) sched, run]
  · simp only [State.runResult, record, List.forall_mem_map, (responseWordFields.1 _).1, code_bits_eq_zero_iff]
    rw [← Bool.not_eq_true, refused]
    push Not
    rfl

end Sys2Proof.Machine
end

section
/-! PROOFS. Operations in small steps (40_seed.md section 4, 42_jump.md section 5): a loop begun ends where the whole operation
does; and every command in progress is answered (70_reset_and_hazards.md section 4). -/

namespace Sys2Proof.Machine

/-- Moves of the engine, whole and small in any mixture (rule R17). -/
def EngineMoves (moves : List Move) : Prop := ∀ m ∈ moves, m = .engine ∨ m = .engineSmall

theorem engineMoves_cons {m : Move} {moves : List Move} :
    EngineMoves (m :: moves) ↔ (m = .engine ∨ m = .engineSmall) ∧ EngineMoves moves :=
  List.forall_mem_cons

/-- The command in progress has been answered, and its response waits. -/
def State.answered (s : State) : Prop := s.activity = .idle ∧ s.rsp.isSome = true

/-- Rule R83: after its answer the engine only waits. -/
theorem runSteps_of_answered {moves rest : List Move} (engine : EngineMoves moves) {s : State} (released : s.rst = false)
    (answered : s.answered) (sched : s.sched = moves ++ rest) :
    runSteps moves.length s = .next { s with sched := rest } := by
  induction moves generalizing s with
  | nil => rw [← show s.sched = rest from sched]; rfl
  | cons m moves ih =>
    obtain ⟨move, engine⟩ := engineMoves_cons.1 engine
    obtain ⟨idle, waits⟩ := answered
    rw [List.length_cons, runSteps_succ _ (step_waiting move sched released idle waits)]
    exact ih engine released ⟨idle, waits⟩ rfl

/-! ## SEED -/

/-- From where SEED `value` stands before iteration `4 - n`, `n` iterations and the end leave what the whole of it does. -/
theorem runSteps_seedLoop {s : State} (released : s.rst = false) {value : Word} {rest : List Move} {n : Nat}
    {moves : List Move} (engine : EngineMoves moves) (count : moves.length = n + 1) {z : Word} {i : Nat} {g : GenState}
    (place : i + n = 4) (progress : SeedProgress value i (z, g)) :
    runSteps (n + 1) { s with gen := g, activity := .seedLoop z i, sched := moves ++ rest } =
      .next (completeSeed { s with gen := seedWords value g, sched := rest }) := by
  induction n generalizing moves z i g with
  | zero =>
    obtain ⟨m, rfl⟩ := List.length_eq_one_iff.1 count
    have words : g = seedWords value g := progress.eq_seedWords (by omega) g
    have last : step { s with gen := g, activity := .seedLoop z i, sched := m :: rest } =
        .next (completeSeed { s with gen := g, sched := rest }) :=
      (step_seedLoop (s := { s with gen := _, activity := _, sched := _ }) (engine m List.mem_cons_self) rfl released
        rfl).trans (congrArg _ (seedSmallStep_of_le place.ge z _))
    rw [← words]
    exact runSteps_succ 0 last
  | succ n ih =>
    obtain ⟨m, moves, rfl⟩ := List.exists_cons_of_length_eq_add_one count
    obtain ⟨move, engine⟩ := engineMoves_cons.1 engine
    have before : i < 4 := by omega
    have iteration : step { s with gen := g, activity := .seedLoop z i, sched := m :: (moves ++ rest) } =
        .next { s with
          gen := (seedIter i (z, g)).2
          activity := .seedLoop (seedIter i (z, g)).1 (i + 1)
          sched := moves ++ rest } :=
      (step_seedLoop (s := { s with gen := _, activity := _, sched := _ }) move rfl released rfl).trans
        (congrArg _ (seedSmallStep_of_lt before z _))
    rw [seedWords_old value g (seedIter i (z, g)).2]
    exact (runSteps_succ _ iteration).trans (ih engine (Nat.succ.inj count) (by omega) progress.seedIter)

theorem beginCommand_seed {cw : CmdWord} {v : Word} (decoded : decode cw = .ok (.seed v)) (s : State) :
    beginCommand cw s = .next (s.setActivity (.seedLoop v 0)) := by
  simp only [beginCommand, decoded]

/-- Settles O49: after the beginning the loop stands at its first iteration, and ends as SEED does
(`runSteps_seedLoop`). -/
theorem seedInSmallSteps : Obligations.SeedInSmallSteps := by
  intro s cw v moves rest released accepted decoded engine count sched
  have start := (step_accepted_small sched released accepted).trans (beginCommand_seed decoded _)
  rw [runSteps_succ 5 start, exec_seed_eq]
  exact runSteps_seedLoop (n := 4) released engine count rfl (seedProgress_zero v s.gen)

/-! ## JUMP and LJUMP -/

/-- Where a jump from `x` stands before iteration `j` (rules R55, R56): `j` updates of the live state, and the sum over the
bits below `j` in the accumulators. -/
def JumpProgress (t : Config.Table) (x : GenState) (j : Nat) (p : JumpRun) : Prop :=
  p.live = advance^[j] x ∧ p.acc = polySum t x j

theorem jumpProgress_zero (t : Config.Table) (x : GenState) : JumpProgress t x 0 ⟨GenState.zero, x⟩ := ⟨rfl, rfl⟩

theorem JumpProgress.jumpIter {t : Config.Table} {x : GenState} {j : Nat} {p : JumpRun} (h : JumpProgress t x j p) :
    JumpProgress t x (j + 1) (jumpIter (tableBit t j) p) := by
  obtain ⟨live, acc⟩ := h
  refine ⟨?_, ?_⟩
  · rw [Machine.jumpIter, live, Function.iterate_succ_apply']
  · rw [Machine.jumpIter, live, acc, polySum]

/-- From where a jump from `x` stands before iteration `256 - n`, `n` iterations and the end leave what the whole of it
does. -/
theorem runSteps_jumpLoop {s : State} (released : s.rst = false) {id : TableId} {x : GenState} {rest : List Move} {n : Nat}
    {moves : List Move} (engine : EngineMoves moves) (count : moves.length = n + 1) {acc g : GenState} {j : Nat}
    (place : j + n = 256) (progress : JumpProgress (tableOf id) x j ⟨acc, g⟩) :
    runSteps (n + 1) { s with gen := g, activity := .jumpLoop id acc j, sched := moves ++ rest } =
      .next (completeJump (polyApply (tableOf id) x) { s with sched := rest }) := by
  induction n generalizing moves acc g j with
  | zero =>
    obtain ⟨m, rfl⟩ := List.length_eq_one_iff.1 count
    obtain rfl : j = 256 := place
    have sum : acc = polyApply (tableOf id) x := progress.2.trans (polyApply_eq_polySum _ x).symm
    have last : step { s with gen := g, activity := .jumpLoop id acc 256, sched := m :: rest } =
        .next (completeJump acc { s with sched := rest }) :=
      (step_jumpLoop (s := { s with gen := _, activity := _, sched := _ }) (engine m List.mem_cons_self) rfl released
        rfl).trans (congrArg _ (jumpSmallStep_of_le (Nat.le_refl _) id acc _))
    rw [← sum]
    exact runSteps_succ 0 last
  | succ n ih =>
    obtain ⟨m, moves, rfl⟩ := List.exists_cons_of_length_eq_add_one count
    obtain ⟨move, engine⟩ := engineMoves_cons.1 engine
    have before : j < 256 := by omega
    have iteration : step { s with gen := g, activity := .jumpLoop id acc j, sched := m :: (moves ++ rest) } =
        .next { s with
          gen := (jumpIter (tableBit (tableOf id) j) ⟨acc, g⟩).live
          activity := .jumpLoop id (jumpIter (tableBit (tableOf id) j) ⟨acc, g⟩).acc (j + 1)
          sched := moves ++ rest } :=
      (step_jumpLoop (s := { s with gen := _, activity := _, sched := _ }) move rfl released rfl).trans
        (congrArg _ (jumpSmallStep_of_lt before id acc _))
    exact (runSteps_succ _ iteration).trans (ih engine (Nat.succ.inj count) (by omega) progress.jumpIter)

/-- The operation that applies a table (rules R51, R52). -/
def jumpInstr : TableId → Instr
  | .jump => .jump
  | .longJump => .ljump

theorem beginCommand_jumpInstr {cw : CmdWord} {id : TableId} (decoded : decode cw = .ok (jumpInstr id)) (s : State) :
    beginCommand cw s = .next (beginJump id s) := by
  cases id <;> simp only [jumpInstr] at decoded <;> simp only [beginCommand, decoded]

theorem exec_jumpInstr (id : TableId) (s : State) :
    exec (jumpInstr id) s = .next (whenSeeded s (completeJump (polyApply (tableOf id) s.gen) s)) := by
  cases id <;> rfl

/-- A jump in small steps: on a seeded engine the loop ends as the whole jump does (`runSteps_jumpLoop`); on any other the
beginning is the fault, and the other moves wait for the host (`runSteps_of_answered`). -/
theorem runSteps_jumpInstr {id : TableId} {cw : CmdWord} {moves rest : List Move} {s : State} (released : s.rst = false)
    (accepted : s.activity = .accepted cw) (decoded : decode cw = .ok (jumpInstr id)) (engine : EngineMoves moves)
    (count : moves.length = 257) (sched : s.sched = .engineSmall :: (moves ++ rest)) :
    runSteps 258 s = exec (jumpInstr id) { s with sched := rest } := by
  have start := (step_accepted_small sched released accepted).trans (beginCommand_jumpInstr decoded _)
  rw [runSteps_succ 257 start, exec_jumpInstr]
  by_cases seeded : s.seeded = true
  · have begun := whenSeeded_of_seeded (s := { s with sched := moves ++ rest }) seeded
    have whole := whenSeeded_of_seeded (s := { s with sched := rest }) seeded
    rw [beginJump, begun, whole]
    exact runSteps_jumpLoop (n := 256) released engine count rfl (jumpProgress_zero (tableOf id) s.gen)
  · rw [Bool.not_eq_true] at seeded
    have begun := whenSeeded_of_unseeded (s := { s with sched := moves ++ rest }) seeded
    have whole := whenSeeded_of_unseeded (s := { s with sched := rest }) seeded
    rw [beginJump, begun, whole, ← count]
    exact runSteps_of_answered engine released ⟨rfl, rfl⟩ rfl

/-- Settles O50: both operations are `runSteps_jumpInstr`. -/
theorem jumpsInSmallSteps : Obligations.JumpsInSmallSteps := by
  intro s cw i moves rest released accepted jump decoded engine count sched
  rcases jump with rfl | rfl
  · exact runSteps_jumpInstr (id := .jump) released accepted decoded engine count sched
  · exact runSteps_jumpInstr (id := .longJump) released accepted decoded engine count sched

/-! ## Every command is answered -/

/-- How many moves of the engine suffice for the answer: a loop's iterations and its end, and before them, if the loop is
not begun, the beginning (log entry 8). -/
def Activity.movesLeft : Activity → Nat
  | .idle => 0
  | .accepted _ => 258
  | .seedLoop _ i => 4 - i + 1
  | .jumpLoop _ _ j => 256 - j + 1

theorem movesLeft_le (a : Activity) : a.movesLeft ≤ 258 := by
  cases a <;> simp only [Activity.movesLeft] <;> omega

theorem movesLeft_pos {a : Activity} (busy : a ≠ .idle) : 0 < a.movesLeft := by
  cases a with
  | idle => exact absurd rfl busy
  | accepted => exact Nat.succ_pos _
  | seedLoop => exact Nat.succ_pos _
  | jumpLoop => exact Nat.succ_pos _

/-- The command in progress is still in progress, with fewer moves left. -/
def State.nearer (s t : State) : Prop := t.activity ≠ .idle ∧ t.activity.movesLeft < s.activity.movesLeft

/-- Rule R85: a move of the engine answers the command in progress or comes nearer to its answer. -/
theorem EngineStep.answered_or_nearer {s t : State} (h : EngineStep s t) (released : s.rst = false)
    (busy : s.activity ≠ .idle) : t.answered ∨ s.nearer t := by
  cases h with
  | inReset reset => cases reset.symm.trans released
  | notAccepted idle => exact absurd idle busy
  | accept cw _ ready => exact absurd ((cmdReady_iff s).1 ready).2.1 busy
  | run cw _ _ _ answer =>
    obtain ⟨t', r, answer', waits, idle, -⟩ := runCommand_next cw s
    cases answer'.symm.trans answer
    exact .inl ⟨idle, by rw [waits]; rfl⟩
  | beginSeed cw v _ accepted => exact .inr ⟨nofun, by simp [accepted, Activity.movesLeft]⟩
  | beginJump cw id _ accepted => exact .inr ⟨nofun, by simp [accepted, Activity.movesLeft]⟩
  | seedIteration z i _ looping =>
    rcases Nat.lt_or_ge i 4 with before | done
    · rw [seedSmallStep_of_lt before]
      exact .inr ⟨nofun, by simp only [looping, setActivity_activity, Activity.movesLeft]; omega⟩
    · rw [seedSmallStep_of_le done]
      exact .inl ⟨rfl, rfl⟩
  | jumpIteration id acc j _ looping =>
    rcases Nat.lt_or_ge j 256 with before | done
    · rw [jumpSmallStep_of_lt before]
      exact .inr ⟨nofun, by simp only [looping, setActivity_activity, Activity.movesLeft]; omega⟩
    · rw [jumpSmallStep_of_le done]
      exact .inl ⟨rfl, rfl⟩

/-- A step whose move is the engine's, by what a move of the engine does. -/
theorem step_engineStep {s : State} {m : Move} {rest : List Move} (move : m = .engine ∨ m = .engineSmall)
    (sched : s.sched = m :: rest) : ∃ t, step s = .next t ∧ EngineStep { s with sched := rest } t := by
  obtain ⟨t, h⟩ := everyStepGoesOn s
  refine ⟨t, h, ?_⟩
  rw [step_of_sched sched] at h
  rcases move with rfl | rfl
  · exact .of_engineMove (.inl rfl) h
  · exact .of_engineMove (.inr rfl) h

/-- As many moves as are left answer the command. -/
theorem runSteps_answers {moves rest : List Move} (engine : EngineMoves moves) {s : State} (released : s.rst = false)
    (busy : s.activity ≠ .idle) (enough : s.activity.movesLeft ≤ moves.length) (sched : s.sched = moves ++ rest) :
    ∃ t, runSteps moves.length s = .next t ∧ t.answered ∧ t.sched = rest := by
  induction moves generalizing s with
  | nil => exact absurd (movesLeft_pos busy) (Nat.not_lt.2 enough)
  | cons m moves ih =>
    obtain ⟨move, engine⟩ := engineMoves_cons.1 engine
    obtain ⟨t, first, moved⟩ := step_engineStep move sched
    obtain ⟨rst, left, -⟩ := moved.frame
    rw [List.length_cons, runSteps_succ _ first]
    rcases moved.answered_or_nearer released busy with answered | ⟨busy', fewer⟩
    · exact ⟨_, runSteps_of_answered engine (rst.trans released) answered left, answered, rfl⟩
    · have enough' : t.activity.movesLeft ≤ moves.length := by
        have : t.activity.movesLeft < moves.length + 1 := fewer.trans_le enough
        omega
      exact ih engine (rst.trans released) busy' enough' left

/-- Settles O48: no command has more than 258 moves left (`movesLeft_le`). -/
theorem everyCommandIsAnsweredInBoundedSteps : Obligations.EveryCommandIsAnsweredInBoundedSteps := by
  intro s moves rest _ released busy engine count sched
  obtain ⟨t, run, ⟨idle, waits⟩, left⟩ :=
    runSteps_answers engine released busy ((movesLeft_le _).trans_eq count.symm) sched
  obtain ⟨r, response⟩ := Option.isSome_iff_exists.1 waits
  exact ⟨t, r, count ▸ run, response, idle, left⟩

end Sys2Proof.Machine
end

section
/-! PROOFS. Three invariants of every step: the hand-over is in order (rules R70, R71, R80, R82), ERR says what the record of
responses says (rule R88), and the words of a seeded engine are not all zero (rule R12). -/

namespace Sys2Proof.Machine

/-! ## The hand-over -/

/-- The loops are inside their bounds, and a jump runs on a seeded engine: the third clause of `State.protocolOk`. -/
def Activity.inBounds (seeded : Bool) : Activity → Prop
  | .idle => True
  | .accepted _ => True
  | .seedLoop _ i => i ≤ 4
  | .jumpLoop _ _ j => j ≤ 256 ∧ seeded = true

/-- Rule R71: the response that waits, if it is a fault's, comes with ERR and value 0. -/
def State.faultMarked (s : State) : Prop := ∀ r, s.rsp = some r → r.code ≠ .ok → s.err = true ∧ r.value = 0#64

theorem protocolOk_iff (s : State) : s.protocolOk ↔ (s.activity ≠ .idle → s.rsp = none) ∧
    (s.rst = true → s.activity = .idle ∧ s.rsp = none ∧ s.seeded = false ∧ s.err = false) ∧
    s.activity.inBounds s.seeded ∧ s.faultMarked :=
  Iff.rfl

/-- An engine that has nothing in progress is in order if its response is. -/
theorem protocolOk_of_idle {s : State} (released : s.rst = false) (idle : s.activity = .idle) (marked : s.faultMarked) :
    s.protocolOk := by
  refine (protocolOk_iff s).2 ⟨fun busy => absurd idle busy, fun reset => ?_, ?_, marked⟩
  · cases released.symm.trans reset
  · rw [idle]
    trivial

/-- An engine whose response port is empty is in order if its operation is inside its bounds. -/
theorem protocolOk_of_noResponse {s : State} (released : s.rst = false) (noResponse : s.rsp = none)
    (bounds : s.activity.inBounds s.seeded) : s.protocolOk := by
  refine (protocolOk_iff s).2 ⟨fun _ => noResponse, fun reset => ?_, bounds, fun r waits => ?_⟩
  · cases released.symm.trans reset
  · cases noResponse.symm.trans waits

/-- A response with code OK needs no mark. -/
theorem faultMarked_of_ok {s : State} {v : Word} (h : s.rsp = some ⟨.ok, v⟩) : s.faultMarked := by
  intro r waits notOk
  cases h.symm.trans waits
  exact absurd rfl notOk

theorem runCommand_faultMarked {cw : CmdWord} {s t : State} (h : runCommand cw s = .next t) : t.faultMarked := by
  intro r waits notOk
  obtain ⟨t', r', answer, waits', -, -, -, set, -⟩ := runCommand_next cw s
  cases answer.symm.trans h
  cases waits'.symm.trans waits
  exact set notOk

theorem EngineStep.protocolOk {s t : State} (h : EngineStep s t) (ok : s.protocolOk) : t.protocolOk := by
  obtain ⟨noResponse, -, bounds, -⟩ := (protocolOk_iff s).1 ok
  cases h with
  | inReset => exact ok
  | notAccepted => exact ok
  | accept cw _ ready =>
    obtain ⟨released, -, empty⟩ := (cmdReady_iff s).1 ready
    exact protocolOk_of_noResponse released empty trivial
  | run cw _ released _ answer =>
    exact protocolOk_of_idle ((runCommand_sameHostSide answer).1.trans released) (runCommand_activity answer)
      (runCommand_faultMarked answer)
  | beginSeed cw v released accepted =>
    exact protocolOk_of_noResponse released (noResponse (by simp [accepted])) (Nat.zero_le 4)
  | beginJump cw id released accepted seeded =>
    exact protocolOk_of_noResponse released (noResponse (by simp [accepted])) ⟨Nat.zero_le 256, seeded⟩
  | seedIteration z i released looping =>
    rcases Nat.lt_or_ge i 4 with before | done
    · rw [seedSmallStep_of_lt before]
      exact protocolOk_of_noResponse released (noResponse (by simp [looping])) before
    · rw [seedSmallStep_of_le done]
      exact protocolOk_of_idle released rfl (faultMarked_of_ok rfl)
  | jumpIteration id acc j released looping =>
    rw [looping] at bounds
    rcases Nat.lt_or_ge j 256 with before | done
    · rw [jumpSmallStep_of_lt before]
      exact protocolOk_of_noResponse released (noResponse (by simp [looping])) ⟨before, bounds.2⟩
    · rw [jumpSmallStep_of_le done]
      exact protocolOk_of_idle released rfl (faultMarked_of_ok rfl)

/-- Settles O51: a move of the engine keeps the order (`EngineStep.protocolOk`); a reset leaves nothing behind; the host's
other moves touch neither the operation nor STATUS, and taking empties the response port. -/
theorem protocolIsKept : Obligations.ProtocolIsKept := by
  intro s t ok h
  obtain ⟨noResponse, reset, bounds, marked⟩ := (protocolOk_iff s).1 ok
  cases step_cases h with
  | engine _ _ move => exact move.protocolOk ok
  | assertRst => exact ⟨fun busy => absurd rfl busy, fun _ => ⟨rfl, rfl, rfl, rfl⟩, trivial, fun _ => nofun⟩
  | releaseRst => exact (protocolOk_iff _).2 ⟨noResponse, fun raised => absurd raised Bool.false_ne_true, bounds, marked⟩
  | offer => exact ok
  | withdraw => exact ok
  | take r _ waits =>
    refine ⟨fun _ => rfl, fun raised => ?_, bounds, fun _ => nofun⟩
    cases (reset raised).2.1.symm.trans waits
  | takeNothing => exact ok

/-- Settles O52. -/
theorem protocolHoldsAtReset : Obligations.ProtocolHoldsAtReset := protocolOk_of_noResponse rfl rfl trivial

/-! ## The record -/

/-- Rule R88: an operation answers onto an empty response port, and its response sets ERR if it is a fault's. -/
theorem State.recordOk.answer {s t : State} {r : Response} (ok : s.recordOk) (noResponse : s.rsp = none)
    (taken : t.taken = s.taken) (waits : t.rsp = some r) (kept : r.code = .ok → t.err = s.err)
    (set : r.code ≠ .ok → t.err = true) : t.recordOk := by
  have before : s.err = true ↔ ∃ r ∈ s.taken, r.code ≠ .ok := by
    simpa only [State.recordOk, noResponse, reduceCtorEq, or_false] using ok
  have responses : (∃ q, (q ∈ t.taken ∨ t.rsp = some q) ∧ q.code ≠ .ok) ↔ s.err = true ∨ r.code ≠ .ok := by
    simp only [before, taken, waits, Option.some_inj, or_and_right, exists_or, exists_eq_left']
  rw [State.recordOk, responses]
  by_cases code : r.code = .ok
  · simp [kept code, code]
  · simp [set code, code]

theorem EngineStep.recordOk {s t : State} (h : EngineStep s t) (inOrder : s.protocolOk) (ok : s.recordOk) :
    t.recordOk := by
  obtain ⟨noResponse, -⟩ := inOrder
  cases h with
  | run cw _ _ accepted answer =>
    obtain ⟨t', r, answer', waits, -, ⟨-, -, -, taken, -⟩, kept, set, -⟩ := runCommand_next cw s
    cases answer'.symm.trans answer
    exact ok.answer (noResponse (by simp [accepted])) taken waits kept fun notOk => (set notOk).1
  | seedIteration z i _ looping =>
    rcases Nat.lt_or_ge i 4 with before | done
    · rw [seedSmallStep_of_lt before]
      exact ok
    · rw [seedSmallStep_of_le done]
      exact ok.answer (noResponse (by simp [looping])) rfl rfl (fun _ => rfl) fun notOk => absurd rfl notOk
  | jumpIteration id acc j _ looping =>
    rcases Nat.lt_or_ge j 256 with before | done
    · rw [jumpSmallStep_of_lt before]
      exact ok
    · rw [jumpSmallStep_of_le done]
      exact ok.answer (noResponse (by simp [looping])) rfl rfl (fun _ => rfl) fun notOk => absurd rfl notOk
  | inReset => exact ok
  | notAccepted => exact ok
  | accept => exact ok
  | beginSeed => exact ok
  | beginJump => exact ok

/-- A reset clears ERR with the record, so that they agree. -/
theorem recordOk_of_empty {s : State} (err : s.err = false) (taken : s.taken = []) (noResponse : s.rsp = none) :
    s.recordOk := by
  simp [State.recordOk, err, taken, noResponse]

/-- Settles O53: the engine's answers are `State.recordOk.answer`, a reset empties the record, and taking moves the
response that waits into it. -/
theorem recordIsKept : Obligations.RecordIsKept := by
  intro s t inOrder ok h
  cases step_cases h with
  | engine _ _ move => exact move.recordOk inOrder ok
  | assertRst => exact recordOk_of_empty rfl rfl rfl
  | releaseRst => exact ok
  | offer => exact ok
  | withdraw => exact ok
  | take r _ waits =>
    simp only [State.recordOk, waits, Option.some_inj] at ok
    simpa only [State.recordOk, List.mem_append, List.mem_singleton, reduceCtorEq, or_false, eq_comm (a := r),
      popMove_err] using ok
  | takeNothing => exact ok

/-- Settles O54. -/
theorem recordHoldsAtReset : Obligations.RecordHoldsAtReset := recordOk_of_empty rfl rfl rfl

/-! ## Words that are not all zero -/

/-- Rule R12 between operations. -/
def State.nonZero (s : State) : Prop := s.seeded = true → s.gen ≠ GenState.zero

section

variable {s : State}

theorem nonDegenerate_idle (h : s.activity = .idle) : s.nonDegenerate ↔ s.nonZero := by
  simp only [State.nonDegenerate, h, State.nonZero]

theorem nonDegenerate_accepted {cw : CmdWord} (h : s.activity = .accepted cw) : s.nonDegenerate ↔ s.nonZero := by
  simp only [State.nonDegenerate, h, State.nonZero]

theorem nonDegenerate_seedLoop {z : Word} {i : Nat} (h : s.activity = .seedLoop z i) :
    s.nonDegenerate ↔ ∃ value, SeedProgress value i (z, s.gen) := by
  simp only [State.nonDegenerate, h, SeedProgress]

theorem nonDegenerate_jumpLoop {id : TableId} {acc : GenState} {j : Nat} (h : s.activity = .jumpLoop id acc j) :
    s.nonDegenerate ↔
      j ≤ 256 ∧ ∃ x, x ≠ GenState.zero ∧ JumpProgress (tableOf id) x j ⟨acc, s.gen⟩ := by
  simp only [State.nonDegenerate, h, JumpProgress]

end

/-- Rule R42: no seed gives the all-zero state. -/
theorem seedWords_ne_zero (value : Word) (g : GenState) : seedWords value g ≠ GenState.zero := by
  intro zero
  have word (k : Fin 4) : seedWord value k.val = 0#64 := by
    rw [← word_seedWords value g k, zero]
    fin_cases k <;> rfl
  exact absurd (seedWord_injective value ((word 0).trans (word 1).symm)) (by decide)

theorem advance_ne_zero {g : GenState} (h : g ≠ GenState.zero) : advance g ≠ GenState.zero :=
  fun zero => h (advance_eq_zero_iff.1 zero)

/-- Rules R42, R47 and R57: a completed operation leaves words that are not all zero. -/
theorem completedGen_ne_zero {i : Instr} {g : GenState} (h : g ≠ GenState.zero ∨ ∃ v, i = .seed v) :
    completedGen i g ≠ GenState.zero := by
  rcases h with h | ⟨v, rfl⟩
  · cases i with
    | seed v => exact seedWords_ne_zero v g
    | jump => exact polyApply_tableOf_ne_zero .jump h
    | ljump => exact polyApply_tableOf_ne_zero .longJump h
    | next => exact advance_ne_zero h
    | nextf32 => exact advance_ne_zero h
    | nextf64 => exact advance_ne_zero h
    | nextint a b => exact advance_ne_zero h
  · exact seedWords_ne_zero v g

theorem runCommand_nonZero {cw : CmdWord} {s t : State} (h : runCommand cw s = .next t) (ok : s.nonZero) :
    t.nonZero := by
  obtain ⟨t', r, answer, -, -, -, -, -, outcome⟩ := runCommand_next cw s
  cases answer.symm.trans h
  rcases outcome with ⟨i, -, rfl, seeded, -⟩ | ⟨c, -, rfl, -⟩
  · exact fun _ => completedGen_ne_zero (seeded.imp_left ok)
  · exact ok

theorem EngineStep.nonDegenerate {s t : State} (h : EngineStep s t) (ok : s.nonDegenerate) : t.nonDegenerate := by
  cases h with
  | inReset => exact ok
  | notAccepted => exact ok
  | accept cw _ ready =>
    obtain ⟨-, idle, -⟩ := (cmdReady_iff s).1 ready
    exact (nonDegenerate_idle idle).1 ok
  | run cw _ _ accepted answer =>
    exact (nonDegenerate_idle (runCommand_activity answer)).2
      (runCommand_nonZero answer ((nonDegenerate_accepted accepted).1 ok))
  | beginSeed cw v => exact (nonDegenerate_seedLoop rfl).2 ⟨v, seedProgress_zero v _⟩
  | beginJump cw id _ accepted seeded =>
    have start : s.gen ≠ GenState.zero := (nonDegenerate_accepted accepted).1 ok seeded
    exact (nonDegenerate_jumpLoop rfl).2 ⟨Nat.zero_le _, s.gen, start, jumpProgress_zero _ _⟩
  | seedIteration z i _ looping =>
    obtain ⟨value, progress⟩ := (nonDegenerate_seedLoop looping).1 ok
    rcases Nat.lt_or_ge i 4 with before | done
    · rw [seedSmallStep_of_lt before]
      exact (nonDegenerate_seedLoop rfl).2 ⟨value, progress.seedIter⟩
    · rw [seedSmallStep_of_le done]
      have words : s.gen = seedWords value s.gen := progress.eq_seedWords done s.gen
      exact (nonDegenerate_idle rfl).2 fun _ => words.trans_ne (seedWords_ne_zero value s.gen)
  | jumpIteration id acc j _ looping =>
    obtain ⟨bound, x, start, progress⟩ := (nonDegenerate_jumpLoop looping).1 ok
    rcases Nat.lt_or_ge j 256 with before | done
    · rw [jumpSmallStep_of_lt before]
      exact (nonDegenerate_jumpLoop rfl).2 ⟨before, x, start, progress.jumpIter⟩
    · rw [jumpSmallStep_of_le done]
      obtain rfl : j = 256 := Nat.le_antisymm bound done
      have sum : acc = polyApply (tableOf id) x := progress.2.trans (polyApply_eq_polySum _ x).symm
      exact (nonDegenerate_idle rfl).2 fun _ => sum.trans_ne (polyApply_tableOf_ne_zero id start)

/-- Settles O55: a move of the engine keeps the invariant (`EngineStep.nonDegenerate`), a reset clears SEEDED, and the
host's other moves touch neither words nor operation. -/
theorem nonDegeneracyIsKept : Obligations.NonDegeneracyIsKept := by
  intro s t ok h
  cases step_cases h with
  | engine _ _ move => exact move.nonDegenerate ok
  | assertRst => exact (nonDegenerate_idle rfl).2 nofun
  | releaseRst => exact ok
  | offer => exact ok
  | withdraw => exact ok
  | take => exact ok
  | takeNothing => exact ok

/-- Settles O56: after reset the engine is not seeded. -/
theorem nonDegeneracyHoldsAtReset : Obligations.NonDegeneracyHoldsAtReset := nofun

/-! ## Runs -/

/-- A run of `n + 1` steps that answers a state is a step and a run of `n`. -/
theorem runSteps_succ_inv {n : Nat} {s t : State} (h : runSteps (n + 1) s = .next t) :
    ∃ u, step s = .next u ∧ runSteps n u = .next t := by
  obtain ⟨u, first⟩ := everyStepGoesOn s
  exact ⟨u, first, (runSteps_succ n first).symm.trans h⟩

/-- What every step keeps, every run keeps. -/
theorem runSteps_keeps {P : State → Prop} (kept : ∀ s t, P s → step s = .next t → P t) {n : Nat} {s t : State}
    (start : P s) (h : runSteps n s = .next t) : P t := by
  induction n generalizing s with
  | zero => cases h; exact start
  | succ n ih =>
    obtain ⟨u, first, rest⟩ := runSteps_succ_inv h
    exact ih (kept s u start first) rest

/-- Settles O57: `nonDegenerate` holds at reset whatever the moves, and every run keeps it. -/
theorem noMovesReachTheZeroState : Obligations.NoMovesReachTheZeroState := by
  refine ⟨fun moves n s run seeded between => ?_, advance_zero, rfl⟩
  have start : State.nonDegenerate { State.reset with sched := moves } := (nonDegenerate_idle rfl).2 nofun
  have ok : s.nonDegenerate := runSteps_keeps nonDegeneracyIsKept start run
  rcases between with idle | ⟨cw, accepted⟩
  · exact (nonDegenerate_idle idle).1 ok seeded
  · exact (nonDegenerate_accepted accepted).1 ok seeded

end Sys2Proof.Machine
end

section
/-! PROOFS. What influences what (10_state.md section 3, 20_memory.md section 4, 60_exceptions.md section 6): words no SEED has
written influence nothing but themselves (rules R11, R13, R18, R25), and engines side by side share nothing (rule R77). -/

namespace Sys2Proof.Machine

/-! ## Two states that differ in the words -/

/-- The same engine with other words, and another count of resets. -/
def State.withWords (s : State) (g : GenState) (n : Nat) : State := { s with gen := g, resets := n }

/-- The words that a SEED has written since the last reset are those of `g` too: the last clause of
`State.sameToHost`. -/
def State.wordsAgree (s : State) (g : GenState) : Prop :=
  match s.activity with
  | .idle => s.seeded = true → s.gen = g
  | .accepted _ => s.seeded = true → s.gen = g
  | .seedLoop _ i => ∀ k : Fin 4, k.val < i → s.gen.word k = g.word k
  | .jumpLoop _ _ _ => s.gen = g

section

variable {s : State} {g : GenState}

theorem wordsAgree_idle (h : s.activity = .idle) : s.wordsAgree g ↔ (s.seeded = true → s.gen = g) := by
  simp only [State.wordsAgree, h]

theorem wordsAgree_accepted {cw : CmdWord} (h : s.activity = .accepted cw) :
    s.wordsAgree g ↔ (s.seeded = true → s.gen = g) := by
  simp only [State.wordsAgree, h]

theorem wordsAgree_seedLoop {z : Word} {i : Nat} (h : s.activity = .seedLoop z i) :
    s.wordsAgree g ↔ ∀ k : Fin 4, k.val < i → s.gen.word k = g.word k := by
  simp only [State.wordsAgree, h]

theorem wordsAgree_jumpLoop {id : TableId} {acc : GenState} {j : Nat} (h : s.activity = .jumpLoop id acc j) :
    s.wordsAgree g ↔ s.gen = g := by
  simp only [State.wordsAgree, h]

end

theorem wordsAgree_refl (s : State) : s.wordsAgree s.gen := by
  cases h : s.activity with
  | idle => exact (wordsAgree_idle h).2 fun _ => rfl
  | accepted cw => exact (wordsAgree_accepted h).2 fun _ => rfl
  | seedLoop z i => exact (wordsAgree_seedLoop h).2 fun _ _ => rfl
  | jumpLoop id acc j => exact (wordsAgree_jumpLoop h).2 rfl

theorem sameToHost_withWords {s : State} {g : GenState} (agree : s.wordsAgree g) (n : Nat) :
    s.sameToHost (s.withWords g n) :=
  ⟨rfl, rfl, rfl, rfl, rfl, rfl, rfl, rfl, agree⟩

theorem exists_withWords_of_sameToHost {s t : State} (h : s.sameToHost t) :
    ∃ g n, t = s.withWords g n ∧ s.wordsAgree g := by
  obtain ⟨seeded, err, activity, rsp, rst, cmd, sched, taken, agree⟩ := h
  refine ⟨t.gen, t.resets, ?_, agree⟩
  rw [State.withWords, seeded, err, activity, rsp, rst, cmd, sched, taken]

/-- Two answers that differ only in words no SEED has written. -/
def SameAnswers (o p : Host.Outcome State Fault Refusal) : Prop :=
  ∃ t g n, o = .next t ∧ p = .next (t.withWords g n) ∧ t.wordsAgree g

/-! ## Commands -/

section

variable {s : State} {g : GenState} (written : s.seeded = true → s.gen = g) (n : Nat)
include written

theorem sameAnswers_exec (i : Instr) : SameAnswers (exec i s) (exec i (s.withWords g n)) := by
  cases fault : faultOf i s.seeded with
  | some c =>
    exact ⟨_, g, n, exec_of_fault fault, exec_of_fault (s := s.withWords g n) fault, (wordsAgree_idle rfl).2 written⟩
  | none =>
    refine ⟨_, completedGen i g, n, exec_of_no_fault fault, (exec_of_no_fault (s := s.withWords g n) fault).trans ?_, ?_⟩
    · rcases faultOf_eq_none fault with seeded | ⟨v, rfl⟩
      · rw [← written seeded]
        rfl
      · rfl
    · rcases faultOf_eq_none fault with seeded | ⟨v, rfl⟩
      · rw [← written seeded]
        exact wordsAgree_refl (completed i s)
      · exact (wordsAgree_idle rfl).2 fun _ => seedWords_old v s.gen g

theorem sameAnswers_runCommand (cw : CmdWord) : SameAnswers (runCommand cw s) (runCommand cw (s.withWords g n)) := by
  cases decoded : decode cw with
  | error e =>
    exact ⟨_, g, n, runCommand_of_error decoded s, runCommand_of_error decoded _, (wordsAgree_idle rfl).2 written⟩
  | ok i =>
    rw [runCommand_of_ok decoded, runCommand_of_ok decoded]
    exact sameAnswers_exec written n i

theorem sameAnswers_beginCommand (cw : CmdWord) :
    SameAnswers (beginCommand cw s) (beginCommand cw (s.withWords g n)) := by
  rcases beginCommand_cases cw with ⟨v, -, seed⟩ | ⟨id, -, -, -, jump⟩ | whole
  · exact ⟨_, g, n, seed s, seed _, (wordsAgree_seedLoop rfl).2 fun _ none => absurd none (Nat.not_lt_zero _)⟩
  · rw [jump, jump, beginJump, beginJump]
    cases seeded : s.seeded with
    | true =>
      rw [whenSeeded_of_seeded seeded, whenSeeded_of_seeded (s := s.withWords g n) seeded]
      exact ⟨_, g, n, rfl, rfl, (wordsAgree_jumpLoop rfl).2 (written seeded)⟩
    | false =>
      rw [whenSeeded_of_unseeded seeded, whenSeeded_of_unseeded (s := s.withWords g n) seeded]
      exact ⟨_, g, n, rfl, rfl, (wordsAgree_idle rfl).2 written⟩
  · rw [whole, whole]
    exact sameAnswers_runCommand written n cw

end

/-! ## Moves -/

theorem acceptCommand_withWords (s : State) (g : GenState) (n : Nat) :
    acceptCommand (s.withWords g n) = (acceptCommand s).withWords g n := by
  have offer : (s.withWords g n).cmd = s.cmd := rfl
  have ready : (s.withWords g n).cmdReady = s.cmdReady := rfl
  simp only [acceptCommand, offer, ready]
  cases s.cmd with
  | none => rfl
  | some cw => cases s.cmdReady <;> rfl

theorem takeResponse_withWords (s : State) (g : GenState) (n : Nat) :
    takeResponse (s.withWords g n) = (takeResponse s).withWords g n := by
  have waiting : (s.withWords g n).rsp = s.rsp := rfl
  simp only [takeResponse, waiting]
  cases s.rsp <;> rfl

/-- An iteration of SEED writes the same word over different ones. -/
theorem sameAnswers_seedSmallStep {s : State} {g : GenState} {z : Word} {i : Nat} (n : Nat)
    (written : ∀ k : Fin 4, k.val < i → s.gen.word k = g.word k) :
    SameAnswers (.next (seedSmallStep z i s)) (.next (seedSmallStep z i (s.withWords g n))) := by
  rcases Nat.lt_or_ge i 4 with before | done
  · rw [seedSmallStep_of_lt before, seedSmallStep_of_lt before]
    refine ⟨_, (seedIter i (z, g)).2, n, rfl, rfl, (wordsAgree_seedLoop rfl).2 fun k hk => ?_⟩
    simp only [setActivity_gen, setGen_gen, seedIter, word_setWord]
    split
    case isTrue => rfl
    case isFalse other => exact written k (by omega)
  · rw [seedSmallStep_of_le done, seedSmallStep_of_le done]
    have same : s.gen = g := genState_ext fun k => written k (k.isLt.trans_le done)
    exact ⟨_, g, n, rfl, rfl, (wordsAgree_idle rfl).2 fun _ => same⟩

theorem sameAnswers_jumpSmallStep (s : State) (id : TableId) (acc : GenState) (j n : Nat) :
    SameAnswers (.next (jumpSmallStep id acc j s)) (.next (jumpSmallStep id acc j (s.withWords s.gen n))) := by
  refine ⟨_, (jumpSmallStep id acc j s).gen, n, rfl, ?_, wordsAgree_refl _⟩
  rcases Nat.lt_or_ge j 256 with before | done
  · rw [jumpSmallStep_of_lt before, jumpSmallStep_of_lt before]
    rfl
  · rw [jumpSmallStep_of_le done, jumpSmallStep_of_le done]
    rfl

theorem sameAnswers_engineMove {perform : CmdWord → State → Host.Outcome State Fault Refusal}
    (commands : ∀ (cw : CmdWord) (s : State) (g : GenState) (n : Nat), (s.seeded = true → s.gen = g) →
      SameAnswers (perform cw s) (perform cw (s.withWords g n)))
    {s : State} {g : GenState} (n : Nat) (agree : s.wordsAgree g) :
    SameAnswers (engineMove perform s) (engineMove perform (s.withWords g n)) := by
  by_cases reset : s.rst = true
  · exact ⟨s, g, n, engineMove_inReset reset, engineMove_inReset (s := s.withWords g n) reset, agree⟩
  rw [Bool.not_eq_true] at reset
  cases activity : s.activity with
  | idle =>
    rw [engineMove_idle reset activity, engineMove_idle (s := s.withWords g n) reset activity, acceptCommand_withWords]
    refine ⟨_, g, n, rfl, rfl, ?_⟩
    rcases acceptCommand_cases s with ⟨cw, -, -, h⟩ | ⟨-, h⟩
    · rw [h]
      exact (wordsAgree_accepted rfl).2 ((wordsAgree_idle activity).1 agree)
    · rwa [h]
  | accepted cw =>
    rw [engineMove_accepted reset activity, engineMove_accepted (s := s.withWords g n) reset activity]
    exact commands cw s g n ((wordsAgree_accepted activity).1 agree)
  | seedLoop z i =>
    rw [engineMove_seedLoop reset activity, engineMove_seedLoop (s := s.withWords g n) reset activity]
    exact sameAnswers_seedSmallStep n ((wordsAgree_seedLoop activity).1 agree)
  | jumpLoop id acc j =>
    rw [engineMove_jumpLoop reset activity, engineMove_jumpLoop (s := s.withWords g n) reset activity,
      ← (wordsAgree_jumpLoop activity).1 agree]
    exact sameAnswers_jumpSmallStep s id acc j n

theorem sameAnswers_runMove {s : State} {g : GenState} (n : Nat) (agree : s.wordsAgree g) (m : Move) :
    SameAnswers (runMove m s) (runMove m (s.withWords g n)) := by
  cases m with
  | engine => exact sameAnswers_engineMove (fun cw s g n written => sameAnswers_runCommand written n cw) n agree
  | engineSmall => exact sameAnswers_engineMove (fun cw s g n written => sameAnswers_beginCommand written n cw) n agree
  | assertRst => exact ⟨_, _, n + 1, rfl, rfl, (wordsAgree_idle rfl).2 nofun⟩
  | releaseRst => exact ⟨_, g, n, rfl, rfl, agree⟩
  | offer cw => exact ⟨_, g, n, rfl, rfl, agree⟩
  | withdraw => exact ⟨_, g, n, rfl, rfl, agree⟩
  | take =>
    refine ⟨_, g, n, rfl, congrArg _ (takeResponse_withWords s g n), ?_⟩
    rcases takeResponse_cases s with ⟨r, -, h⟩ | ⟨-, h⟩
    · rw [h]
      exact agree
    · rwa [h]

/-- Settles O58: the two states are one with different words (`exists_withWords_of_sameToHost`), and every move answers
them alike (`sameAnswers_runMove`). -/
theorem unseededWordsHaveNoInfluence : Obligations.UnseededWordsHaveNoInfluence := by
  intro s t s' t' same first second
  obtain ⟨g, n, rfl, agree⟩ := exists_withWords_of_sameToHost same
  obtain ⟨u, g', n', answer, answer', agree'⟩ := sameAnswers_runMove (s := s.popMove) n agree s.nextMove
  cases answer.symm.trans first
  cases answer'.symm.trans second
  exact sameToHost_withWords agree' n'

/-- Settles O59: every step keeps the two states alike (`unseededWordsHaveNoInfluence`). -/
theorem sameMovesGiveTheSameResponses : Obligations.SameMovesGiveTheSameResponses := by
  intro n
  induction n with
  | zero =>
    intro s t s' t' same first second
    cases first
    cases second
    obtain ⟨seeded, err, -, rsp, -, -, -, taken, -⟩ := same
    exact ⟨taken, rsp, seeded, err⟩
  | succ n ih =>
    intro s t s' t' same first second
    obtain ⟨u, step1, rest1⟩ := runSteps_succ_inv first
    obtain ⟨v, step2, rest2⟩ := runSteps_succ_inv second
    exact ih u v s' t' (unseededWordsHaveNoInfluence s t u v same step1 step2) rest1 rest2

/-! ## Several engines -/

theorem stepEngine_of_none {k : Nat} {engines : List State} (h : engines[k]? = none) :
    stepEngine k engines = .next engines := by
  simp only [stepEngine, h]

theorem stepEngine_of_some {k : Nat} {engines : List State} {s t : State} (h : engines[k]? = some s)
    (first : step s = .next t) : stepEngine k engines = .next (engines.set k t) := by
  simp only [stepEngine, h, first]

/-- Settles O60: a step of engine `k` writes its place in the list and no other. -/
theorem enginesShareNothing : Obligations.EnginesShareNothing := by
  intro k engines after h
  cases place : engines[k]? with
  | none =>
    cases (stepEngine_of_none place).symm.trans h
    exact ⟨rfl, fun _ _ => rfl, fun s s' there => by cases there⟩
  | some s =>
    obtain ⟨t, first⟩ := everyStepGoesOn s
    cases (stepEngine_of_some place first).symm.trans h
    refine ⟨List.length_set, fun j other => List.getElem?_set_ne other.symm, fun s' t' there moved => ?_⟩
    cases there
    cases first.symm.trans moved
    exact List.getElem?_set_self (List.getElem?_eq_some_iff.1 place).1

end Sys2Proof.Machine
end
